-- ==== Sys2Proof/Word.lean ====
section
/-! DEFINITION. The units the engine handles: bytes, words, headers and the bit-length counter
(spec/00_scope.md R6, R10, R12). -/

namespace Sys2Proof

/-- A byte, the unit of input: an unsigned integer 0 to 255 (R6, R12). -/
abbrev Byte := BitVec 8

/-- A word: 32 bits, bit 31 the most significant (R6, R10). `+` on it is the spec's `+32`, which wraps (R11). -/
abbrev Word := BitVec 32

/-- A 16-bit command header (R61). -/
abbrev Header := BitVec 16

/-- The bit-length counter: `LENW` = 64 bits; `+` on it is the spec's `+64`, which wraps (R6, R11, R25). -/
abbrev BitLength := BitVec 64

end Sys2Proof
end

