-- ==== Sys2Proof/Config.lean ====
section
/-! DEFINITION. What is fixed for the machine: the encoding's limits, the two read-only constant tables, and the
one source of free values (spec/00_scope.md R6, spec/10_state.md R30 and R33). -/

namespace Sys2Proof.Config

/-- `MAXCHUNK`: the largest payload of one encoded UPDATE, in bytes (R6, R62). -/
def maxChunk : Nat := 16383

/-- The first bit count that no message may reach: 2^64 (R6 `LENW` and `LENFIELD`, R161, R183). -/
def lengthLimit : Nat := 2 ^ 64

/-- Bits of a message block (R6). -/
def blockBits : Nat := 512

/-- The table of R30 as it is printed: eight rows, each with the words of columns +0 to +7. -/
def roundConstantTable : Vector (Vector Word 8) 8 :=
  #v[#v[0x428a2f98, 0x71374491, 0xb5c0fbcf, 0xe9b5dba5, 0x3956c25b, 0x59f111f1, 0x923f82a4, 0xab1c5ed5],
     #v[0xd807aa98, 0x12835b01, 0x243185be, 0x550c7dc3, 0x72be5d74, 0x80deb1fe, 0x9bdc06a7, 0xc19bf174],
     #v[0xe49b69c1, 0xefbe4786, 0x0fc19dc6, 0x240ca1cc, 0x2de92c6f, 0x4a7484aa, 0x5cb0a9dc, 0x76f988da],
     #v[0x983e5152, 0xa831c66d, 0xb00327c8, 0xbf597fc7, 0xc6e00bf3, 0xd5a79147, 0x06ca6351, 0x14292967],
     #v[0x27b70a85, 0x2e1b2138, 0x4d2c6dfc, 0x53380d13, 0x650a7354, 0x766a0abb, 0x81c2c92e, 0x92722c85],
     #v[0xa2bfe8a1, 0xa81a664b, 0xc24b8b70, 0xc76c51a3, 0xd192e819, 0xd6990624, 0xf40e3585, 0x106aa070],
     #v[0x19a4c116, 0x1e376c08, 0x2748774c, 0x34b0bcb5, 0x391c0cb3, 0x4ed8aa4a, 0x5b9cca4f, 0x682e6ff3],
     #v[0x748f82ee, 0x78a5636f, 0x84c87814, 0x8cc70208, 0x90befffa, 0xa4506ceb, 0xbef9a3f7, 0xc67178f2]]

/-- `K[0..63]`, the round constants: `K[i]` is row `floor(i / 8)`, column `i mod 8` of the table (R30; PRESUMED by the spec
itself from FIPS 180-4, log entry 6). -/
def K : Vector Word 64 :=
  Vector.ofFn fun i => (roundConstantTable[i.val / 8]'(by omega))[i.val % 8]'(by omega)

/-- `IV[0..7]`, the initial hash words (R33; PRESUMED by the spec itself from FIPS 180-4, log entry 6). -/
def IV : Vector Word 8 :=
  #v[0x6a09e667, 0xbb67ae85, 0x3c6ef372, 0xa54ff53a, 0x510e527f, 0x9b05688c, 0x1f83d9ab, 0x5be0cd19]

/-- The `n`-th free word. It has no body, so no proof can know a value of it. It stands for every scratch word
that the spec leaves unspecified (R28, R29, R104; 93_implementation_defined.md U3; log entry 2). -/
opaque freeWord : Nat → Word

end Sys2Proof.Config
end

