-- ==== Sys2Proof/Syntax.lean ====
section
/-! DEFINITION. The abstract syntax: the three commands a host can issue (spec/30_encoding.md R60), the error
codes (spec/60_exceptions.md R180) and the three outcomes of a command (spec/00_scope.md R9). -/

namespace Sys2Proof

/-- The commands, one constructor per row of opcode_table.json: `Cmd ::= init | update (data) | final` (R60).
The internal operations have no encoding and are no commands (R73). -/
inductive Instr where
  /-- INIT, the source's `new()` (R160). -/
  | init
  /-- UPDATE data, the source's `update(data)`; `data` may have any length (R161). -/
  | update (data : List Byte)
  /-- FINAL, the source's `finalize()` (R162). -/
  | final
  deriving DecidableEq, Repr

/-- The complete list of errors (R180). -/
inductive ErrorCode where
  /-- `E_ILLEGAL_CMD`, code 1: the header encodes no command (R181). -/
  | illegalCmd
  /-- `E_UPDATE_AFTER_FINAL`, code 2: UPDATE when `DONE` = 1 (R182). -/
  | updateAfterFinal
  /-- `E_LEN_OVERFLOW`, code 3: the message would reach 2^64 bits (R183). -/
  | lenOverflow
  /-- `E_PAD_INVARIANT`, code 4: `BITLEN` is no multiple of 512 after the padding step (R184). -/
  | padInvariant
  deriving DecidableEq, Repr

/-- A digest: exactly 32 bytes (R6 `DIGESTBYTES`, R9). -/
abbrev Digest := Vector Byte 32

/-- The outcome of a command, returned to the host as its response (R9). -/
inductive Response where
  | ok
  | digest (d : Digest)
  | err (e : ErrorCode)
  deriving DecidableEq, Repr

end Sys2Proof
end

