-- ==== Sys2Proof/WellFormed.lean ====
section
/-! DEFINITION. Which commands the encoding can carry (spec/30_encoding.md R62). -/

namespace Sys2Proof

/-- A command is well formed when its payload length fits the 14-bit field LEN (R62). It is a limit of the
encoding only: the operation UPDATE is defined for every length. -/
def Instr.wf : Instr → Bool
  | .init => true
  | .update data => decide (data.length ≤ Config.maxChunk)
  | .final => true

end Sys2Proof
end

