-- ==== Sys2Proof/Decode.lean ====
section
/-! DEFINITION. The command decoder and encoder, the response encoder and its reader
(spec/30_encoding.md R61 to R63, R66, R67, R70). -/

namespace Sys2Proof

/-! ## Headers -/

/-- A header travels high byte first (R45, R61): byte 0 is bits 15:8, byte 1 is bits 7:0. -/
def headerOfBytes (b0 b1 : Byte) : Header := b0 ++ b1

/-- Bits 15:8 of a header, its first byte on the stream (R61). -/
def headerHigh (hdr : Header) : Byte := hdr.extractLsb' 8 8

/-- Bits 7:0 of a header, its second byte on the stream (R61). -/
def headerLow (hdr : Header) : Byte := hdr.extractLsb' 0 8

/-- The field OP, header bits 15:14 (R61). -/
def opField (hdr : Header) : BitVec 2 := hdr.extractLsb' 14 2

/-- The field LEN, header bits 13:0, unsigned, zero-extended, not scaled (R61, R62). -/
def lenField (hdr : Header) : Nat := (hdr.extractLsb' 0 14).toNat

/-- A header from its two fields (R61). -/
def mkHeader (op : BitVec 2) (len : Nat) : Header := op ++ BitVec.ofNat 14 len

/-! ## Commands -/

/-- What the decoder finds at the front of a command stream (R66). -/
inductive Decoded where
  /-- The stream ends inside a command: nothing is consumed. -/
  | incomplete
  /-- The header is illegal (R67); `rest` is the stream after its two bytes. -/
  | illegal (hdr : Header) (rest : List Byte)
  /-- A whole command; `rest` is the stream after it. -/
  | command (i : Instr) (rest : List Byte)
  deriving DecidableEq, Repr

/-- What a header stands for, before its payload is looked at: OP and LEN decide (R63, R66, R67). -/
def decodeHeader (hdr : Header) (rest : List Byte) : Decoded :=
  if opField hdr = 0b01#2 ∧ lenField hdr = 0 then .command .init rest
  else if opField hdr = 0b11#2 ∧ lenField hdr = 0 then .command .final rest
  else if opField hdr = 0b10#2 then
    if rest.length < lenField hdr then .incomplete
    else .command (.update (rest.take (lenField hdr))) (rest.drop (lenField hdr))
  else .illegal hdr rest

/-- The decoding algorithm, total on every byte stream and independent of the engine's state (R66, R69). -/
def decode : List Byte → Decoded
  | b0 :: b1 :: rest => decodeHeader (headerOfBytes b0 b1) rest
  | _ => .incomplete

/-- The header of a command (R63). -/
def encodeHeader : Instr → Header
  | .init => mkHeader 0b01#2 0
  | .update data => mkHeader 0b10#2 data.length
  | .final => mkHeader 0b11#2 0

/-- The payload of a command: UPDATE's bytes in index order, nothing for the others (R61, R62). -/
def payload : Instr → List Byte
  | .update data => data
  | _ => []

/-- The bytes of a well-formed command: header high byte first, then the payload (R61). -/
def encode (i : Instr) : List Byte :=
  headerHigh (encodeHeader i) :: headerLow (encodeHeader i) :: payload i

/-! ## The opcode table's rows (R63) -/

/-- One row of the opcode map: a header selects it when `hdr AND mask = value`. -/
structure OpRow where
  mnemonic : String
  value : Header
  mask : Header
  deriving DecidableEq, Repr

/-- The rows of opcode_table.json (R63). -/
def opRows : List OpRow :=
  [⟨"INIT", 0x4000, 0xFFFF⟩, ⟨"UPDATE", 0x8000, 0xC000⟩, ⟨"FINAL", 0xC000, 0xFFFF⟩]

/-- Does a header select a row (R63)? -/
def OpRow.selects (r : OpRow) (hdr : Header) : Bool := hdr &&& r.mask == r.value

/-- The row of a command. -/
def rowOf : Instr → OpRow
  | .init => ⟨"INIT", 0x4000, 0xFFFF⟩
  | .update _ => ⟨"UPDATE", 0x8000, 0xC000⟩
  | .final => ⟨"FINAL", 0xC000, 0xFFFF⟩

/-! ## A table word laid out on the stream -/

/-- The bytes of one command whose header is the low 16 bits of `w`, bit 0 the least significant, and whose payload
byte `i` is bits `16 + 8i` to `23 + 8i`; every bit at `nbits` and above is 0. An UPDATE header is given exactly LEN
payload bytes (log entry 9). -/
def tableBytes (nbits w : Nat) : List Byte :=
  let v := w % 2 ^ nbits
  let hdr : Header := BitVec.ofNat 16 v
  let len := if opField hdr = 0b10#2 then lenField hdr else 0
  headerHigh hdr :: headerLow hdr :: (List.range len).map fun i => BitVec.ofNat 8 (v >>> (16 + 8 * i))

/-- The command the decoder reads from a table word; none where it refuses. -/
def decodeTableWord (nbits w : Nat) : Option Instr :=
  match decode (tableBytes nbits w) with
  | .command i _ => some i
  | .illegal _ _ => none
  | .incomplete => none

/-! ## Responses (R70) -/

/-- The numeric code of an error (R180). -/
def errorNumber : ErrorCode → Byte
  | .illegalCmd => 1
  | .updateAfterFinal => 2
  | .lenOverflow => 3
  | .padInvariant => 4

/-- A response on the stream: a status byte, and the 32 digest bytes after status `0x01`; `ERR(c)` is the byte
`0x80 + c` (R70). -/
def encodeResponse : Response → List Byte
  | .ok => [0x00]
  | .digest d => 0x01 :: d.toList
  | .err e => [0x80 + errorNumber e]

/-- The first 32 bytes of a stream as a digest, if there are that many. -/
def takeDigest (bs : List Byte) : Option (Digest × List Byte) :=
  if 32 ≤ bs.length then some (Vector.ofFn fun i => bs.getD i.val 0, bs.drop 32) else none

/-- How the host reads one response off the response stream; none where the stream is short or the status byte is one
that R70 says is never emitted. -/
def decodeResponse : List Byte → Option (Response × List Byte)
  | [] => none
  | status :: rest =>
    if status = 0x00 then some (.ok, rest)
    else if status = 0x01 then (takeDigest rest).map fun p => (.digest p.1, p.2)
    else if status = 0x81 then some (.err .illegalCmd, rest)
    else if status = 0x82 then some (.err .updateAfterFinal, rest)
    else if status = 0x83 then some (.err .lenOverflow, rest)
    else if status = 0x84 then some (.err .padInvariant, rest)
    else none

end Sys2Proof
end

