-- ==== Sys2Proof/Machine/State.lean ====
section
/-! DEFINITION. The state of one engine with its two byte streams, and the state after reset
(spec/10_state.md R20 to R37, spec/20_memory.md R40, spec/70_reset_and_hazards.md R200). -/

namespace Sys2Proof.Machine

/-- The working variables `a .. h` (R29). -/
structure WorkingVars where
  a : Word
  b : Word
  c : Word
  d : Word
  e : Word
  f : Word
  g : Word
  h : Word
  deriving DecidableEq, Repr

/-- Everything the spec gives the engine, and the model's own counter of free values. `K` and `IV` are constants of
Config (R30, R33). -/
structure State where
  /-- `H[0..7]`, the hash state (R21). -/
  hash : Vector Word 8
  /-- `BUF[0..15]`, the pending buffer (R22). -/
  buf : Vector Word 16
  /-- `BITLEN`, the bits absorbed so far, padding included (R25). -/
  bitlen : BitLength
  /-- `DONE` (R27). -/
  done : Bool
  /-- `W[0..63]`, scratch: unspecified between operations (R28). -/
  sched : Vector Word 64
  /-- `a..h`, scratch: unspecified between operations (R29). -/
  vars : WorkingVars
  /-- The command stream: bytes the host has sent and the decoder has not consumed, oldest first (R40, R66). -/
  cmdIn : List Byte
  /-- The response stream: bytes the engine has emitted and the host has not taken, oldest first (R40, R70). -/
  respOut : List Byte
  /-- The MODEL's own: how many free words have been drawn (log entry 2). -/
  freeCount : Nat
  deriving DecidableEq, Repr

/-- The reasons a step could stop with a fault. There are none: the engine has no trap mechanism, and each of the four
errors of R180 is a response and a next state (R188). -/
inductive Fault where
  deriving DecidableEq, Repr

/-- The reasons a step could be refused. -/
inductive Refusal where
  /-- Raised by a refused arm of `exec` for a command that has no meaning yet; safe. No arm raises it: all three
  commands have their meaning. -/
  | notModelled (mnemonic : String)
  deriving DecidableEq, Repr

/-- The value the model gives all eight working variables at reset: zero (DESIGN CHOICE, log entry 1). -/
def WorkingVars.zero : WorkingVars := ⟨0, 0, 0, 0, 0, 0, 0, 0⟩

/-- The state after reset: that of the source's `new()`, with empty streams (R37, R200). The scratch has no specified
value and is zero here (DESIGN CHOICE, log entry 1); so is the model's counter (DESIGN CHOICE, log entry 2). -/
def State.reset : State where
  hash := Config.IV
  buf := Vector.replicate 16 0
  bitlen := 0
  done := false
  sched := Vector.replicate 64 0
  vars := WorkingVars.zero
  cmdIn := []
  respOut := []
  freeCount := 0

end Sys2Proof.Machine
end

