-- ==== Sys2Proof/Machine/Operands.lean ====
section
/-! DEFINITION. Words, lanes and big-endian byte strings (spec/00_scope.md R10, R12; spec/20_memory.md R41, R44),
the one way an array is read and written, and the write cursor (spec/10_state.md R31, spec/42_streaming_buffer.md
R121). -/

namespace Sys2Proof.Machine

/-! ## Array access -/

/-- Element `i` of an array of words. Every rule keeps its index in range (R40), so the value 0 given outside the range
is never used (log entry 8). -/
def readWord {n : Nat} (arr : Vector Word n) (i : Nat) : Word := arr[i]?.getD 0

/-- The array with element `i` replaced; outside the range, which no rule reaches, the array is unchanged (R40, log
entry 8). -/
def writeWord {n : Nat} (arr : Vector Word n) (i : Nat) (v : Word) : Vector Word n := arr.setIfInBounds i v

/-! ## Lanes and big-endian packing -/

/-- Byte lane `l` of a word, 0 to 3: bits `31 - 8l` down to `24 - 8l` (R10, R41). -/
def lane (v : Word) (l : Nat) : Byte := (v >>> (8 * (3 - l))).setWidth 8

/-- A byte placed in lane `l` of a word of zeros: `zext_32(b) << (8 * (3 - l))` (R47). -/
def byteInLane (b : Byte) (l : Nat) : Word := b.setWidth 32 <<< (8 * (3 - l))

/-- `word_be(b0, b1, b2, b3)` (R12). -/
def wordBE (b0 b1 b2 b3 : Byte) : Word :=
  (b0.setWidth 32 <<< 24) ||| (b1.setWidth 32 <<< 16) ||| (b2.setWidth 32 <<< 8) ||| b3.setWidth 32

/-- `be32(v)`: the four bytes of a word, most significant first (R12). -/
def be32 (v : Word) : Vector Byte 4 := #v[lane v 0, lane v 1, lane v 2, lane v 3]

/-- `be64(v)`: the eight bytes of a 64-bit value, most significant first (R12). -/
def be64 (v : BitLength) : List Byte :=
  [v.extractLsb' 56 8, v.extractLsb' 48 8, v.extractLsb' 40 8, v.extractLsb' 32 8,
   v.extractLsb' 24 8, v.extractLsb' 16 8, v.extractLsb' 8 8, v.extractLsb' 0 8]

/-- The byte view of the pending buffer: position `p` is lane `p mod 4` of word `p / 4` (R41). -/
def bufByte (buf : Vector Word 16) (p : Nat) : Byte := lane (readWord buf (p / 4)) (p % 4)

/-! ## The write cursor, read off BITLEN -/

/-- `w`: the word slot being filled, 0 to 15 (R31, R121). -/
def cursorWord (s : State) : Nat := s.bitlen.toNat % 512 / 32

/-- `k`: the bytes already in that word, 0 to 3 (R31, R121; exact when BITLEN is a multiple of 8, log entry 7). -/
def cursorLane (s : State) : Nat := s.bitlen.toNat % 32 / 8

/-- `offset`: the bytes still needed to complete a partially filled word; 0 when none is (R121). -/
def headNeeded (s : State) : Nat := (4 - cursorLane s) % 4

/-- The byte position in the block being assembled, 0 to 63 (R31). -/
def blockPosition (s : State) : Nat := s.bitlen.toNat % 512 / 8

end Sys2Proof.Machine
end

