-- ==== Sys2Proof/Machine/Flags.lean ====
section
/-! DEFINITION. The one flag, the lifecycle it tells apart, and the three conditions a command tests
(spec/10_state.md R27; spec/44_host_commands.md R161, R165; spec/43_padding_finalization.md R143). No arithmetic sets a
flag: all sums wrap silently (R27, R82). -/

namespace Sys2Proof.Machine

/-- The two lifecycle modes (R165). They are no privilege levels (R191). -/
inductive Mode where
  /-- `DONE` = 0. -/
  | active
  /-- `DONE` = 1. -/
  | finalized
  deriving DecidableEq, Repr

/-- The mode, told by `DONE` (R27, R165). -/
def mode (s : State) : Mode := if s.done then .finalized else .active

/-- `DONE <- 1` (R142). -/
def setDone (s : State) : State := { s with done := true }

/-- Would a chunk of `n` bytes bring the message to 2^64 bits or more? On natural numbers (R161, R183). -/
def lengthOverflows (s : State) (n : Nat) : Bool := decide (Config.lengthLimit ≤ s.bitlen.toNat + 8 * n)

/-- Is `BITLEN` no multiple of 512 (step 5 of FINALIZE, R143)? -/
def padInvariantBroken (s : State) : Bool := decide (s.bitlen.toNat % Config.blockBits ≠ 0)

end Sys2Proof.Machine
end

