-- ==== Sys2Proof/Machine/Ops.lean ====
section
/-! DEFINITION. The shared operations over the state: the accesses to the buffer and the counter
(spec/20_memory.md R47, spec/42_streaming_buffer.md R124), initialisation (spec/10_state.md R37), responses and the one
way an error is raised (spec/30_encoding.md R70, spec/60_exceptions.md R188), fetching from the command stream (R66), and
what becomes of the scratch (R104). -/

namespace Sys2Proof.Machine

/-! ## Buffer and counter -/

/-- `BufXorByte(w, l, b)`: exclusive-or of a byte into lane `l` of buffer word `w` (R47). -/
def bufXorByte (w l : Nat) (b : Byte) (s : State) : State :=
  { s with buf := writeWord s.buf w (readWord s.buf w ^^^ byteInLane b l) }

/-- `BufSetWord(w, v)` (R47). -/
def bufSetWord (w : Nat) (v : Word) (s : State) : State := { s with buf := writeWord s.buf w v }

/-- `BITLEN <- BITLEN +64 8n` (R124). -/
def advanceBitlen (n : Nat) (s : State) : State := { s with bitlen := s.bitlen + BitVec.ofNat 64 (8 * n) }

/-- The initialisation of INIT and of reset: `H = IV`, `BUF = 0`, `BITLEN = 0`, `DONE = 0`; the scratch is not touched
(R37, R160). -/
def initialise (s : State) : State :=
  { s with hash := Config.IV, buf := Vector.replicate 16 0, bitlen := 0, done := false }

/-! ## Scratch -/

/-- 64 free words from the `n`-th on, as the contents of `W`. -/
@[irreducible] def freeSchedule (n : Nat) : Vector Word 64 := Vector.ofFn fun i => Config.freeWord (n + i.val)

/-- Eight free words from the `n`-th on, as the working variables. -/
def freeVars (n : Nat) : WorkingVars :=
  ⟨Config.freeWord n, Config.freeWord (n + 1), Config.freeWord (n + 2), Config.freeWord (n + 3),
   Config.freeWord (n + 4), Config.freeWord (n + 5), Config.freeWord (n + 6), Config.freeWord (n + 7)⟩

/-- How many free words one release of the scratch draws: 64 for `W` and 8 for `a..h`. -/
def scratchWords : Nat := 72

/-- After an operation the contents of `W` and `a..h` are unspecified: each becomes a free value (R104, log entry 2). -/
def releaseScratch (s : State) : State :=
  { s with
    sched := freeSchedule s.freeCount
    vars := freeVars (s.freeCount + 64)
    freeCount := s.freeCount + scratchWords }

/-! ## Responses and errors -/

/-- `respond r`: the command ends and its response goes out on the response stream (R9, R13, R70). -/
def respond (r : Response) (s : State) : State := { s with respOut := s.respOut ++ encodeResponse r }

/-- `raise E_x`: the command stops at once and its response is `ERR(code)`. Nothing is saved, no mode changes, control
goes nowhere, what has been written stays written (R13, R188). There is no return from an error, since the engine is
back in normal operation after the response (R189). -/
def raiseError (e : ErrorCode) (s : State) : State := respond (.err e) s

/-! ## Fetching -/

/-- What stands at the front of the command stream (R66). -/
def fetch (s : State) : Decoded := decode s.cmdIn

/-- The command stream after a command's bytes have been consumed (R66). -/
def consume (rest : List Byte) (s : State) : State := { s with cmdIn := rest }

/-- The engine waits: it does nothing and produces no response until the host supplies the missing bytes (R66, R164). -/
def await (s : State) : State := s

end Sys2Proof.Machine
end

