-- ==== Sys2Proof/Machine/Primitives.lean ====
section
/-! DEFINITION. The bitwise primitives, pure and total functions over words (spec/40_bitwise_primitives.md). -/

namespace Sys2Proof.Machine

/-- `ROTR(x, n)`, `1 <= n <= 31` (R80). -/
def rotr (x : Word) (n : Nat) : Word := (x >>> n) ||| (x <<< (32 - n))

/-- `SHR(x, n)`, a logical shift (R81). -/
def shr (x : Word) (n : Nat) : Word := x >>> n

/-- `ADD32(x, y)`, addition modulo 2^32 (R82). -/
def add32 (x y : Word) : Word := x + y

/-- `CH(x, y, z)` (R83). -/
def ch (x y z : Word) : Word := (x &&& y) ^^^ (~~~x &&& z)

/-- `MAJ(x, y, z)` (R84). -/
def maj (x y z : Word) : Word := (x &&& y) ^^^ (x &&& z) ^^^ (y &&& z)

/-- `BSIG0(x)`, the source's bigSigma0 (R85). -/
def bsig0 (x : Word) : Word := rotr x 2 ^^^ rotr x 13 ^^^ rotr x 22

/-- `BSIG1(x)`, the source's bigSigma1 (R86). -/
def bsig1 (x : Word) : Word := rotr x 6 ^^^ rotr x 11 ^^^ rotr x 25

/-- `SSIG0(x)`, the source's smallSigma0; the third term is a shift (R87). -/
def ssig0 (x : Word) : Word := rotr x 7 ^^^ rotr x 18 ^^^ shr x 3

/-- `SSIG1(x)`, the source's smallSigma1; the third term is a shift (R88). -/
def ssig1 (x : Word) : Word := rotr x 17 ^^^ rotr x 19 ^^^ shr x 10

end Sys2Proof.Machine
end

