-- ==== Sys2Proof/Machine/Compression.lean ====
section
/-! DEFINITION. The compression core: SCHED, ROUND and COMPRESS (spec/41_compression_core.md R100 to R106). -/

namespace Sys2Proof.Machine

/-! ## SCHED (R100) -/

/-- `W[i] <- block[i]`. -/
def copyWord (block : Vector Word 16) (W : Vector Word 64) (i : Nat) : Vector Word 64 :=
  writeWord W i (readWord block i)

/-- `W[i] <- SSIG1(W[i-2]) +32 W[i-7] +32 SSIG0(W[i-15]) +32 W[i-16]`. -/
def expandWord (W : Vector Word 64) (i : Nat) : Vector Word 64 :=
  writeWord W i
    (add32 (add32 (add32 (ssig1 (readWord W (i - 2))) (readWord W (i - 7))) (ssig0 (readWord W (i - 15))))
      (readWord W (i - 16)))

/-- `SCHED(block)`, run over whatever the scratch holds: words 0 to 15 are copied, words 16 to 63 are expanded in
ascending order, so that all 64 words are written (R100, R104, R206). -/
@[irreducible] def schedule (stale : Vector Word 64) (block : Vector Word 16) : Vector Word 64 :=
  (List.range' 16 48).foldl expandWord ((List.range 16).foldl (copyWord block) stale)

/-! ## ROUND (R101) -/

/-- `T1`, from the values before the round. -/
def roundT1 (W : Vector Word 64) (v : WorkingVars) (i : Nat) : Word :=
  add32 (add32 (add32 (add32 v.h (bsig1 v.e)) (ch v.e v.f v.g)) (readWord Config.K i)) (readWord W i)

/-- `T2`, from the values before the round. -/
def roundT2 (v : WorkingVars) : Word := add32 (bsig0 v.a) (maj v.a v.b v.c)

/-- `ROUND(v, i, W)`: the eight assignments are simultaneous (R101). -/
def roundStep (W : Vector Word 64) (v : WorkingVars) (i : Nat) : WorkingVars where
  a := add32 (roundT1 W v i) (roundT2 v)
  b := v.a
  c := v.b
  d := v.c
  e := add32 v.d (roundT1 W v i)
  f := v.e
  g := v.f
  h := v.g

/-- Rounds 0 to 63 in this order (R102, R103). -/
@[irreducible] def allRounds (W : Vector Word 64) (v : WorkingVars) : WorkingVars := (List.range 64).foldl (roundStep W) v

/-! ## COMPRESS (R102) -/

/-- The working variables seeded from the hash state. -/
def seedVars (hash : Vector Word 8) : WorkingVars :=
  ⟨readWord hash 0, readWord hash 1, readWord hash 2, readWord hash 3,
   readWord hash 4, readWord hash 5, readWord hash 6, readWord hash 7⟩

/-- `H[j] <- H[j] +32 v[j]`: `a` to `H[0]`, .., `h` to `H[7]`. -/
def addBack (hash : Vector Word 8) (v : WorkingVars) : Vector Word 8 :=
  #v[add32 (readWord hash 0) v.a, add32 (readWord hash 1) v.b, add32 (readWord hash 2) v.c, add32 (readWord hash 3) v.d,
     add32 (readWord hash 4) v.e, add32 (readWord hash 5) v.f, add32 (readWord hash 6) v.g, add32 (readWord hash 7) v.h]

/-- Step 1 of COMPRESS: `W` is rebuilt from the block, over its stale contents. -/
def runSchedule (s : State) : State := { s with sched := schedule s.sched s.buf }

/-- Step 2 of COMPRESS: `a..h` are seeded from `H`. -/
def runSeed (s : State) : State := { s with vars := seedVars s.hash }

/-- Step 3 of COMPRESS: the 64 rounds. -/
def runRounds (s : State) : State := { s with vars := allRounds s.sched s.vars }

/-- Step 4 of COMPRESS: the add-back into `H`. -/
def runAddBack (s : State) : State := { s with hash := addBack s.hash s.vars }

/-- `COMPRESS(BUF)`. The buffer is not cleared, and afterwards the scratch is unspecified (R102, R104). -/
def compress (s : State) : State := releaseScratch (runAddBack (runRounds (runSeed (runSchedule s))))

end Sys2Proof.Machine
end

