-- ==== Sys2Proof/Machine/Absorb.lean ====
section
/-! DEFINITION. The streaming buffer manager: ABSORB (spec/42_streaming_buffer.md R120 to R129). -/

namespace Sys2Proof.Machine

/-- `for j in 0..len(data): BufXorByte(w, l + j, data[j])`, the insertions of steps 3 and 7 (R122). -/
def xorBytes (w : Nat) : Nat → List Byte → State → State
  | _, [], s => s
  | l, b :: rest, s => xorBytes w (l + 1) rest (bufXorByte w l b s)

/-- What follows the completion of word `w`: `w <- w + 1; if w = 16: COMPRESS(BUF); w <- 0` (R122, R126). -/
def wordCompleted (w : Nat) (s : State) : Nat × State :=
  if w + 1 = 16 then (0, compress s) else (w + 1, s)

/-- Steps 6 and 7 of ABSORB from word `w` on: whole quartets by assignment; then the word that will hold the next
partial bytes is set to 0, whether or not any are left, and the 0 to 3 bytes left over are XORed into it (R122, R123). -/
def absorbWords : List Byte → Nat → State → State
  | b0 :: b1 :: b2 :: b3 :: rest, w, s =>
    absorbWords rest (wordCompleted w (bufSetWord w (wordBE b0 b1 b2 b3) s)).1
      (wordCompleted w (bufSetWord w (wordBE b0 b1 b2 b3) s)).2
  | left, w, s => xorBytes w 0 left (bufSetWord w 0 s)

/-- ABSORB from step 5 on, after the head has been inserted and BITLEN advanced; `w` and `offset` are the values of
step 2, since BITLEN no longer describes the buffer (R122, R207). -/
def absorbBody (w offset : Nat) (data : List Byte) (s : State) : State :=
  if data.length < offset then s
  else if 0 < offset then
    absorbWords (data.drop offset) (wordCompleted w s).1 (wordCompleted w s).2
  else absorbWords data w s

/-- `ABSORB(data)` (R122). -/
def absorb (data : List Byte) (s : State) : State :=
  if data.isEmpty then s
  else
    absorbBody (cursorWord s) (headNeeded s) data
      (advanceBitlen data.length (xorBytes (cursorWord s) (cursorLane s) (data.take (headNeeded s)) s))

end Sys2Proof.Machine
end

