-- ==== Sys2Proof/Machine/Padding.lean ====
section
/-! DEFINITION. Padding and finalization: PADBYTES, FINALIZE and DIGEST (spec/43_padding_finalization.md R140 to R148). -/

namespace Sys2Proof.Machine

/-- `lenAfterMarker` (R140). -/
def lenAfterMarker (L : BitLength) : Nat := (L.toNat + 8) % 512

/-- `zeros`, the number of zero bytes in the padding (R140). -/
def zeroCount (L : BitLength) : Nat :=
  if 448 < lenAfterMarker L then (448 + 512 - lenAfterMarker L) / 8 else (448 - lenAfterMarker L) / 8

/-- `PADBYTES(L)`: the marker byte, the zeros, the original length (R141). -/
def padBytes (L : BitLength) : List Byte := 0x80 :: (List.replicate (zeroCount L) 0 ++ be64 L)

/-- `DIGEST(H)`: the eight words, each big-endian, in order 0 to 7 (R44, R144). -/
def digestOf (hash : Vector Word 8) : Digest :=
  be32 (readWord hash 0) ++ be32 (readWord hash 1) ++ be32 (readWord hash 2) ++ be32 (readWord hash 3) ++
  be32 (readWord hash 4) ++ be32 (readWord hash 5) ++ be32 (readWord hash 6) ++ be32 (readWord hash 7)

/-- Steps 1 to 4 of FINALIZE, on the first FINAL only: `DONE <- 1`, and the padding is absorbed (R142, R145). -/
def padOnce (s : State) : State := if s.done then s else absorb (padBytes s.bitlen) (setDone s)

/-- `FINALIZE()`: pad once, check that the total is a multiple of 512, serialize (R142, R143). -/
def finalize (s : State) : State × Except ErrorCode Digest :=
  if padInvariantBroken (padOnce s) then (padOnce s, .error .padInvariant)
  else (padOnce s, .ok (digestOf (padOnce s).hash))

end Sys2Proof.Machine
end

