-- ==== Sys2Proof/Machine/Commands.lean ====
section
/-! DEFINITION. The meanings of the three commands, and of an illegal header (spec/44_host_commands.md R160 to R162,
spec/60_exceptions.md R181). -/

namespace Sys2Proof.Machine

/-- INIT (R160). -/
def execInit (s : State) : Host.Outcome State Fault Refusal := .next (respond .ok (initialise s))

/-- UPDATE data: `DONE` is tested before the length, and both before any write (R161, R187). -/
def execUpdate (data : List Byte) (s : State) : Host.Outcome State Fault Refusal :=
  .next
    (if s.done then raiseError .updateAfterFinal s
     else if lengthOverflows s data.length then raiseError .lenOverflow s
     else respond .ok (absorb data s))

/-- How FINAL answers what FINALIZE gave (R162). -/
def answerFinal : State × Except ErrorCode Digest → State
  | (s, .ok d) => respond (.digest d) s
  | (s, .error e) => raiseError e s

/-- FINAL (R162). -/
def execFinal (s : State) : Host.Outcome State Fault Refusal := .next (answerFinal (finalize s))

/-- An illegal header, its two bytes consumed: the state is unchanged but for the response, which does not echo the
header (R67, R181). -/
def execIllegal (_hdr : Header) (s : State) : Host.Outcome State Fault Refusal := .next (raiseError .illegalCmd s)

end Sys2Proof.Machine
end

