-- ==== Sys2Proof/Machine/Step.lean ====
section
/-! DEFINITION. One step of the engine: one whole command taken from the front of the command stream
(spec/00_scope.md R8, spec/30_encoding.md R66). -/

namespace Sys2Proof.Machine

/-- One step. A stream that ends inside a command makes the engine wait, its state unchanged; an illegal header and a
command consume their bytes and are executed (R66, R67). -/
def step (s : State) : Host.Outcome State Fault Refusal :=
  match fetch s with
  | .incomplete => .next (await s)
  | .illegal hdr rest => execIllegal hdr (consume rest s)
  | .command i rest => exec i (consume rest s)

/-- The state with a table word's bytes at the front of the command stream, where the next step fetches
(log entry 9). -/
def State.withFetchWord (s : State) (nbits w : Nat) : State :=
  { s with cmdIn := tableBytes nbits w ++ s.cmdIn }

end Sys2Proof.Machine
end

