-- ==== Sys2Proof/Machine/HostPort.lean ====
section
/-! DEFINITION. What the host can do to an engine between its steps: send command bytes, take response bytes, reset it
(spec/00_scope.md R7, spec/70_reset_and_hazards.md R200, R201), and the host-side list of commands with its index
(spec/10_state.md R32). -/

namespace Sys2Proof.Machine

/-- The host sends bytes: they join the end of the command stream (R42, R51). -/
def hostSend (bytes : List Byte) (s : State) : State := { s with cmdIn := s.cmdIn ++ bytes }

/-- The host takes the first `n` bytes of the response stream (R40). -/
def hostTake (n : Nat) (s : State) : State := { s with respOut := s.respOut.drop n }

/-- The host resets an idle engine: the `new()` state, both streams empty, everything absorbed or pending discarded
(R200, R201). The scratch has no specified value afterwards, so it becomes a free value (log entries 2 and 5). -/
def hostReset (s : State) : State := { releaseScratch (initialise s) with cmdIn := [], respOut := [] }

/-- One move of the system of engine and host. A reset falls between commands only, since a step is a whole command
(R48, R201). -/
inductive Move where
  | engineStep
  | send (bytes : List Byte)
  | take (n : Nat)
  | reset
  deriving DecidableEq, Repr

/-- The state after a move; a step that stopped would leave the state as it was. -/
def applyMove : Move → State → State
  | .engineStep, s =>
    match step s with
    | .next t => t
    | .fault _ => s
    | .refused _ => s
  | .send bytes, s => hostSend bytes s
  | .take n, s => hostTake n s
  | .reset, s => hostReset s

/-- A run of the system. -/
def runMoves : List Move → State → State
  | [], s => s
  | m :: rest, s => runMoves rest (applyMove m s)

/-- The host side of a list of commands: the index of the next one, which is no hardware state, and the engine (R32). -/
structure HostRun where
  next : Nat
  engine : State
  deriving DecidableEq, Repr

/-- The host issues the next command of its list: its bytes are sent, the engine takes one step, and the index advances
by one whatever the outcome (R32). -/
def HostRun.issue (commands : List Instr) (r : HostRun) : HostRun :=
  match commands[r.next]? with
  | none => r
  | some i => { next := r.next + 1, engine := applyMove .engineStep (hostSend (encode i) r.engine) }

end Sys2Proof.Machine
end

