-- ==== Sys2Proof/Machine/Assembly.lean ====
section
/-! DEFINITION. The textual form of a command list and its pseudo-instructions (spec/30_encoding.md R71, R72). It is the
host's side: the engine sees bytes only. -/

namespace Sys2Proof.Machine

/-! ## Abstract syntax -/

/-- One operand of UPDATE (R71). -/
inductive AsmOperand where
  /-- `hexbyte` -/
  | byte (b : Byte)
  /-- `hexbyte * count` -/
  | repeated (b : Byte) (count : Nat)
  /-- a string of printable characters, one byte each -/
  | text (bytes : List Byte)
  deriving DecidableEq, Repr

/-- One line: the three commands, and the pseudo-instructions HASH and REFINAL (R71, R72). -/
inductive AsmLine where
  | init
  | update (operands : List AsmOperand)
  | final
  | hash (operands : List AsmOperand)
  | refinal
  deriving DecidableEq, Repr

/-! ## Assembling -/

/-- The bytes of one operand (R71). -/
def AsmOperand.bytes : AsmOperand → List Byte
  | .byte b => [b]
  | .repeated b count => List.replicate count b
  | .text bytes => bytes

/-- The operands of one UPDATE are concatenated left to right (R71). -/
def operandData (operands : List AsmOperand) : List Byte := operands.flatMap AsmOperand.bytes

/-- Cuts data into chunks of MAXCHUNK bytes and one with the remainder, `fuel` cuts at most (R72). -/
def cutChunks : Nat → List Byte → List (List Byte)
  | 0, data => [data]
  | fuel + 1, data =>
    if data.length ≤ Config.maxChunk then [data]
    else data.take Config.maxChunk :: cutChunks fuel (data.drop Config.maxChunk)

/-- The UPDATE commands of a chunk of any length (R62, R72). -/
def updateCommands (data : List Byte) : List Instr :=
  (cutChunks (data.length / Config.maxChunk) data).map Instr.update

/-- The commands of one line (R71, R72). -/
def assembleLine : AsmLine → List Instr
  | .init => [.init]
  | .update operands => updateCommands (operandData operands)
  | .final => [.final]
  | .hash operands => .init :: (updateCommands (operandData operands) ++ [.final])
  | .refinal => [.final]

/-- The command stream of a list of lines (R61, R71). -/
def assemble (lines : List AsmLine) : List Byte := (lines.flatMap assembleLine).flatMap encode

/-! ## Reading text -/

/-- The quotation mark, character 34. -/
def quoteMark : Char := Char.ofNat 34

/-- One token of a line. -/
inductive AsmToken where
  | word (cs : List Char)
  | quoted (cs : List Char)
  deriving DecidableEq, Repr

/-- Where the reader of a line stands: between tokens, in a word, or in a string; `acc` is held in reverse. -/
inductive LexMode where
  | between
  | inWord (acc : List Char)
  | inString (acc : List Char)
  deriving DecidableEq, Repr

/-- Is a character a blank: a space, a tabulator, a carriage return (DESIGN CHOICE, log entry 11)? -/
def isBlank (c : Char) : Bool := c == ' ' || c == Char.ofNat 9 || c == Char.ofNat 13

/-- The tokens of one line; `;` outside a string starts a comment that runs to the end of the line (R71). What R71 leaves
open is a DESIGN CHOICE (log entry 11): a `;` inside a string belongs to the string; a word ends at a blank, at a `;` or at
the line's end, and a quotation mark directly after a word is refused; after a string's closing quotation mark the next token
may follow at once, with no blank between. None when a string is not closed. -/
def lexLine : LexMode → List Char → Option (List AsmToken)
  | .between, [] => some []
  | .inWord acc, [] => some [.word acc.reverse]
  | .inString _, [] => none
  | .between, c :: cs =>
    if c = ';' then some []
    else if isBlank c then lexLine .between cs
    else if c = quoteMark then lexLine (.inString []) cs
    else lexLine (.inWord [c]) cs
  | .inWord acc, c :: cs =>
    if c = ';' then some [.word acc.reverse]
    else if isBlank c then (lexLine .between cs).map (.word acc.reverse :: ·)
    else if c = quoteMark then none
    else lexLine (.inWord (c :: acc)) cs
  | .inString acc, c :: cs =>
    if c = quoteMark then (lexLine .between cs).map (.quoted acc.reverse :: ·)
    else lexLine (.inString (c :: acc)) cs

/-- The value of a hexadecimal digit, of either case (R71). -/
def hexDigit (c : Char) : Option Nat :=
  if 48 ≤ c.toNat ∧ c.toNat ≤ 57 then some (c.toNat - 48)
  else if 65 ≤ c.toNat ∧ c.toNat ≤ 70 then some (c.toNat - 55)
  else if 97 ≤ c.toNat ∧ c.toNat ≤ 102 then some (c.toNat - 87)
  else none

/-- The value of a decimal digit. -/
def decDigit (c : Char) : Option Nat := if 48 ≤ c.toNat ∧ c.toNat ≤ 57 then some (c.toNat - 48) else none

/-- A decimal natural number, read left to right onto `acc`. -/
def readDecimal : Nat → List Char → Option Nat
  | acc, [] => some acc
  | acc, c :: cs => (decDigit c).bind fun d => readDecimal (10 * acc + d) cs

/-- Two hexadecimal digits as a byte. -/
def readHexByte (c d : Char) : Option Byte :=
  (hexDigit c).bind fun hi => (hexDigit d).map fun lo => BitVec.ofNat 8 (16 * hi + lo)

/-- A printable ASCII character other than the quotation mark, as its code (R71). -/
def asciiByte (c : Char) : Option Byte :=
  if 32 ≤ c.toNat ∧ c.toNat ≤ 126 ∧ c ≠ quoteMark then some (BitVec.ofNat 8 c.toNat) else none

/-- One token as an operand (R71); `hexbyte * count` is one token, with no blank in it (DESIGN CHOICE, log entry 11). -/
def readOperand : AsmToken → Option AsmOperand
  | .quoted cs => (cs.mapM asciiByte).map .text
  | .word [c, d] => (readHexByte c d).map .byte
  | .word (c :: d :: '*' :: n :: ns) =>
    (readHexByte c d).bind fun b => (readDecimal 0 (n :: ns)).map (.repeated b)
  | .word _ => none

/-- The tokens of a line that is not blank as a line (R71, R72). Mnemonics are upper case. -/
def readTokens : List AsmToken → Option AsmLine
  | [.word ['I', 'N', 'I', 'T']] => some .init
  | [.word ['F', 'I', 'N', 'A', 'L']] => some .final
  | [.word ['R', 'E', 'F', 'I', 'N', 'A', 'L']] => some .refinal
  | .word ['U', 'P', 'D', 'A', 'T', 'E'] :: operands => (operands.mapM readOperand).map .update
  | .word ['H', 'A', 'S', 'H'] :: operands => (operands.mapM readOperand).map .hash
  | _ => none

/-- One line of text: blank lines and lines with a comment only hold no command (R71). -/
def readLine (cs : List Char) : Option (List AsmLine) :=
  (lexLine .between cs).bind fun tokens => if tokens.isEmpty then some [] else (readTokens tokens).map ([·])

/-- A text cut at its line ends, each a line feed (DESIGN CHOICE, log entry 11). -/
def splitLines : List Char → List Char → List (List Char)
  | acc, [] => [acc.reverse]
  | acc, c :: cs => if c = Char.ofNat 10 then acc.reverse :: splitLines [] cs else splitLines (c :: acc) cs

/-- A whole text as lines; none when a line is not of the form of R71. -/
def readText (cs : List Char) : Option (List AsmLine) :=
  ((splitLines [] cs).mapM readLine).map List.flatten

end Sys2Proof.Machine
end

