-- ==== Sys2Proof/Machine/Reference.lean ====
section
/-! DEFINITION. What the commands compute, said over whole byte strings: the functional statement of
spec/44_host_commands.md R166, the closed form of the buffer of spec/10_state.md R24, the byte-serial reading of
spec/42_streaming_buffer.md R128, and the definition of the constants of R30 and R33. No meaning calls anything of this
file: statements compare the engine with it. -/

namespace Sys2Proof.Machine

/-! ## The functional statement (R166) -/

/-- Word `i` of a byte string by `word_be`; bytes past its end count as 0. -/
def wordAt (bytes : List Byte) (i : Nat) : Word :=
  wordBE (bytes.getD (4 * i) 0) (bytes.getD (4 * i + 1) 0) (bytes.getD (4 * i + 2) 0) (bytes.getD (4 * i + 3) 0)

/-- The first 64 bytes of a string as a block of sixteen words. -/
def blockOf (bytes : List Byte) : Vector Word 16 := Vector.ofFn fun i => wordAt bytes i.val

/-- COMPRESS as a function of hash state and block (R102, R103). -/
def foldBlock (hash : Vector Word 8) (block : Vector Word 16) : Vector Word 8 :=
  addBack hash (allRounds (schedule (Vector.replicate 64 0) block) (seedVars hash))

/-- The first `q` blocks of a string folded into a hash state, in order (R106, R166). -/
def foldBlocks : Nat → List Byte → Vector Word 8 → Vector Word 8
  | 0, _, hash => hash
  | q + 1, bytes, hash => foldBlocks q (bytes.drop 64) (foldBlock hash (blockOf bytes))

/-- The hash state after the complete blocks of a string, from `IV`. -/
def hashOfBytes (bytes : List Byte) : Vector Word 8 := foldBlocks (bytes.length / 64) bytes Config.IV

/-- The length of a message in bits, as the 64-bit counter holds it (R25). -/
def bitCount (bytes : List Byte) : BitLength := BitVec.ofNat 64 (8 * bytes.length)

/-- The SHA-256 digest of a message: pad, cut into blocks, fold from `IV`, serialize (R166). -/
def sha256 (message : List Byte) : Digest := digestOf (hashOfBytes (message ++ padBytes (bitCount message)))

/-! ## The closed form of the buffer (R24) -/

/-- The bytes of the block being assembled, `cur`. -/
def currentBlock (bytes : List Byte) : List Byte := bytes.drop (64 * (bytes.length / 64))

/-- The last complete block, `prev`; no bytes, which read as zeros, before the first block is complete. -/
def previousBlock (bytes : List Byte) : List Byte :=
  if bytes.length / 64 = 0 then [] else (bytes.drop (64 * (bytes.length / 64 - 1))).take 64

/-- The word that `BUF[i]` holds when the string `bytes` has been absorbed: the current block up to and including the
word at the cursor, whose unwritten lanes are zero; the previous block above it (R24). -/
def bufferWord (bytes : List Byte) (i : Nat) : Word :=
  if i ≤ bytes.length % 64 / 4 then wordAt (currentBlock bytes) i else wordAt (previousBlock bytes) i

/-- The engine's hash state, buffer and counter are those of the absorbed string `bytes` (R24, R166). -/
def Represents (s : State) (bytes : List Byte) : Prop :=
  s.hash = hashOfBytes bytes ∧ (∀ i < 16, readWord s.buf i = bufferWord bytes i) ∧ s.bitlen = bitCount bytes

/-! ## The byte-serial reading (R128) -/

/-- `ABSORB1(b)`. -/
def absorb1 (s : State) (b : Byte) : State :=
  let w := cursorWord s
  let t := advanceBitlen 1 (bufXorByte w (cursorLane s) b s)
  if cursorLane s = 3 then
    if w = 15 then bufSetWord 0 0 (compress t) else bufSetWord (w + 1) 0 t
  else t

/-! ## The constants (R30, R33) -/

/-- The prime numbers below `n`, by trial division. -/
def primesBelow (n : Nat) : List Nat :=
  (List.range n).filter fun p => decide (2 ≤ p) && (List.range p).all fun d => decide (d < 2) || decide (p % d ≠ 0)

end Sys2Proof.Machine
end

