-- ==== Sys2Proof/Safety.lean ====
section
/-! DEFINITION. What holds of an engine at every command boundary, which states a host can bring it to, and what counts
as a quiet run (spec/10_state.md R23 to R27 and R36, spec/60_exceptions.md R189). -/

namespace Sys2Proof.Machine

/-! ## Invariants -/

/-- `BITLEN` is a multiple of 8 (R26). -/
abbrev ByteAligned (s : State) : Prop := s.bitlen.toNat % 8 = 0

/-- The unwritten lanes of the word at the cursor are zero, which is what makes insertion by exclusive-or correct (R24,
R125). -/
abbrev CursorLanesZero (s : State) : Prop :=
  ∀ l < 4, cursorLane s ≤ l → lane (readWord s.buf (cursorWord s)) l = 0

/-- A FINALIZED engine has absorbed whole blocks (R143, R147). -/
abbrev FinalizedIsWholeBlocks (s : State) : Prop := s.done = true → s.bitlen.toNat % 512 = 0

/-- The invariant of every command boundary. -/
structure Inv (s : State) : Prop where
  byteAligned : ByteAligned s
  cursorLanesZero : CursorLanesZero s
  finalizedIsWholeBlocks : FinalizedIsWholeBlocks s

/-- The engine has absorbed some string: a message of fewer than 2^64 bits while ACTIVE, a message and its padding once
FINALIZED (R24, R166). -/
def HoldsMessage (s : State) : Prop :=
  ∃ message : List Byte, 8 * message.length < Config.lengthLimit ∧
    if s.done then Represents s (message ++ padBytes (bitCount message)) else Represents s message

/-! ## Reachable states -/

/-- The states a host can bring an engine to from reset: any order of steps, bytes sent, bytes taken and resets (R7,
R201). -/
inductive Reachable : State → Prop where
  | reset : Reachable State.reset
  | move (m : Move) {s : State} (h : Reachable s) : Reachable (applyMove m s)

/-! ## What no response depends on -/

/-- Two states that differ at most in the scratch and the model's own counter (R36, U3). -/
structure SameButScratch (s t : State) : Prop where
  hash : s.hash = t.hash
  buf : s.buf = t.buf
  bitlen : s.bitlen = t.bitlen
  done : s.done = t.done
  cmdIn : s.cmdIn = t.cmdIn
  respOut : s.respOut = t.respOut

/-- Two states that a host cannot tell apart: they differ at most in the scratch, in the model's own counter and in the
words of the buffer above the write cursor (R36, U3, U6). -/
structure SameToHost (s t : State) : Prop where
  hash : s.hash = t.hash
  buf : ∀ i ≤ cursorWord s, readWord s.buf i = readWord t.buf i
  bitlen : s.bitlen = t.bitlen
  done : s.done = t.done
  cmdIn : s.cmdIn = t.cmdIn
  respOut : s.respOut = t.respOut

/-! ## Quiet runs -/

/-- The responses on a response stream, read off until it ends or does not parse, `fuel` at most. -/
def responsesOf : Nat → List Byte → List Response
  | 0, _ => []
  | fuel + 1, bs =>
    match decodeResponse bs with
    | none => []
    | some (r, rest) => r :: responsesOf fuel rest

/-- No error response stands on the response stream: the model's own record of faults, which R189 allows and the
hardware does not keep. -/
def Quiet (s : State) : Prop := ∀ e, Response.err e ∉ responsesOf s.respOut.length s.respOut

end Sys2Proof.Machine
end

