-- ==== Sys2Proof/Certificates/Slice0/Obligations.lean ====
section
/-! DEFINITION. The statements about the engine, one `Obligations.<Name>` each. They follow the rules of spec/ from the
leaves up: words, compression, buffer, padding, commands, errors, encoding, the step, the invariants, and what the
commands compute. -/

open Sys2Proof Sys2Proof.Machine

/-! ## Words -/

/-- R41: byte position `p` of the block is lane `p mod 4` of word `p / 4`, lane `l` is bits `31 - 8l` down to `24 - 8l`,
and four bytes from a position divisible by 4 are the word `word_be`. -/
def Obligations.BufferIsBigEndian : Prop :=
  (∀ (buf : Vector Word 16) (p : Nat),
    bufByte buf p = (readWord buf (p / 4)).extractLsb' (24 - 8 * (p % 4)) 8) ∧
  (∀ (buf : Vector Word 16) (i : Nat),
    readWord buf i = wordBE (bufByte buf (4 * i)) (bufByte buf (4 * i + 1)) (bufByte buf (4 * i + 2))
      (bufByte buf (4 * i + 3))) ∧
  (∀ b0 b1 b2 b3 : Byte,
    (wordBE b0 b1 b2 b3).toNat = b0.toNat * 2 ^ 24 + b1.toNat * 2 ^ 16 + b2.toNat * 2 ^ 8 + b3.toNat)

/-- R80: rotation moves bit `(i + n) mod 32` to bit `i`, for `1 <= n <= 31`; it is the OR of two shifts, and fixes the
all-zero and the all-one word. -/
def Obligations.RotateMovesEveryBit : Prop :=
  ∀ (x : Word) (n : Nat), 1 ≤ n → n ≤ 31 →
    (∀ i < 32, (rotr x n).getLsbD i = x.getLsbD ((i + n) % 32)) ∧
    rotr x n = (x >>> n) ||| (x <<< (32 - n)) ∧
    rotr 0 n = 0 ∧ rotr 0xFFFFFFFF n = 0xFFFFFFFF

/-- R81, R82: the right shift is floor division by `2^n`; addition is modulo 2^32, commutative and associative. -/
def Obligations.ShiftAndAdditionAreExact : Prop :=
  (∀ (x : Word) (n : Nat), (shr x n).toNat = x.toNat / 2 ^ n) ∧
  (∀ x y : Word, (add32 x y).toNat = (x.toNat + y.toNat) % 2 ^ 32 ∧ add32 x y = add32 y x) ∧
  (∀ x y z : Word, add32 (add32 x y) z = add32 x (add32 y z))

/-- R83, R84: bit by bit, choice takes `y` where `x` is 1 and `z` where it is 0, and majority is 1 where at least two of
the three bits are. -/
def Obligations.ChoiceAndMajorityAreBitwise : Prop :=
  ∀ (x y z : Word) (i : Nat), i < 32 →
    (ch x y z).getLsbD i = (if x.getLsbD i then y.getLsbD i else z.getLsbD i) ∧
    (maj x y z).getLsbD i =
      decide (2 ≤ (x.getLsbD i).toNat + (y.getLsbD i).toNat + (z.getLsbD i).toNat)

/-- R85 to R88: each sigma function is the exclusive-or of three images of its operand; in the two lowercase ones the
third image is shifted, so its top bits are 0. -/
def Obligations.SigmasMixThreeImages : Prop :=
  ∀ (x : Word) (i : Nat), i < 32 →
    (bsig0 x).getLsbD i = (x.getLsbD ((i + 2) % 32) ^^ x.getLsbD ((i + 13) % 32) ^^ x.getLsbD ((i + 22) % 32)) ∧
    (bsig1 x).getLsbD i = (x.getLsbD ((i + 6) % 32) ^^ x.getLsbD ((i + 11) % 32) ^^ x.getLsbD ((i + 25) % 32)) ∧
    (ssig0 x).getLsbD i =
      (x.getLsbD ((i + 7) % 32) ^^ x.getLsbD ((i + 18) % 32) ^^ (if i + 3 < 32 then x.getLsbD (i + 3) else false)) ∧
    (ssig1 x).getLsbD i =
      (x.getLsbD ((i + 17) % 32) ^^ x.getLsbD ((i + 19) % 32) ^^ (if i + 10 < 32 then x.getLsbD (i + 10) else false))

/-- `K[i]` is the first 32 bits of the fractional part of the cube root of the `i`-th prime (2, 3, .., 311), and `IV[i]`
those of its square root, in exact integer arithmetic: `q` is the root's integer part. Both tables are PRESUMED (log
entry 6): 10_state.md section 7 marks them, and this reading of them, as general knowledge and not in its source. -/
def Obligations.ConstantsAreRootsOfPrimes : Prop :=
  (primesBelow 312).length = 64 ∧
  (∀ i < 64, ∃ q < 8,
    (q * 2 ^ 32 + (readWord Config.K i).toNat) ^ 3 ≤ (primesBelow 312).getD i 0 * 2 ^ 96 ∧
    (primesBelow 312).getD i 0 * 2 ^ 96 < (q * 2 ^ 32 + (readWord Config.K i).toNat + 1) ^ 3) ∧
  (∀ i < 8, ∃ q < 8,
    (q * 2 ^ 32 + (readWord Config.IV i).toNat) ^ 2 ≤ (primesBelow 312).getD i 0 * 2 ^ 64 ∧
    (primesBelow 312).getD i 0 * 2 ^ 64 < (q * 2 ^ 32 + (readWord Config.IV i).toNat + 1) ^ 2)

/-! ## Compression -/

/-- R100: whatever the scratch held, words 0 to 15 of the schedule are the block and words 16 to 63 obey the
recurrence. -/
def Obligations.ScheduleObeysTheRecurrence : Prop :=
  ∀ (stale : Vector Word 64) (block : Vector Word 16),
    (∀ i < 16, readWord (schedule stale block) i = readWord block i) ∧
    (∀ i, 16 ≤ i → i < 64 →
      readWord (schedule stale block) i =
        ssig1 (readWord (schedule stale block) (i - 2)) + readWord (schedule stale block) (i - 7) +
          ssig0 (readWord (schedule stale block) (i - 15)) + readWord (schedule stale block) (i - 16))

/-- R101, R102: COMPRESS adds to `H` the working variables that 64 rounds make from `H` and the schedule of the buffer,
each round by the formulas of R101; it leaves `BUF`, `BITLEN`, `DONE` and the streams alone. -/
def Obligations.CompressRunsSixtyFourRounds : Prop :=
  ∀ s : State, ∃ (W : Nat → Word) (v : Nat → WorkingVars),
    ((∀ i < 16, W i = readWord s.buf i) ∧
      (∀ i, 16 ≤ i → i < 64 → W i = ssig1 (W (i - 2)) + W (i - 7) + ssig0 (W (i - 15)) + W (i - 16))) ∧
    v 0 = { a := readWord s.hash 0, b := readWord s.hash 1, c := readWord s.hash 2, d := readWord s.hash 3,
            e := readWord s.hash 4, f := readWord s.hash 5, g := readWord s.hash 6, h := readWord s.hash 7 } ∧
    (∀ i < 64,
      let T1 := (v i).h + bsig1 (v i).e + ch (v i).e (v i).f (v i).g + readWord Config.K i + W i
      let T2 := bsig0 (v i).a + maj (v i).a (v i).b (v i).c
      v (i + 1) = { a := T1 + T2, b := (v i).a, c := (v i).b, d := (v i).c,
                    e := (v i).d + T1, f := (v i).e, g := (v i).f, h := (v i).g }) ∧
    (readWord (compress s).hash 0 = readWord s.hash 0 + (v 64).a ∧
      readWord (compress s).hash 1 = readWord s.hash 1 + (v 64).b ∧
      readWord (compress s).hash 2 = readWord s.hash 2 + (v 64).c ∧
      readWord (compress s).hash 3 = readWord s.hash 3 + (v 64).d ∧
      readWord (compress s).hash 4 = readWord s.hash 4 + (v 64).e ∧
      readWord (compress s).hash 5 = readWord s.hash 5 + (v 64).f ∧
      readWord (compress s).hash 6 = readWord s.hash 6 + (v 64).g ∧
      readWord (compress s).hash 7 = readWord s.hash 7 + (v 64).h) ∧
    (compress s).buf = s.buf ∧ (compress s).bitlen = s.bitlen ∧ (compress s).done = s.done ∧
    (compress s).cmdIn = s.cmdIn ∧ (compress s).respOut = s.respOut

/-- R103: COMPRESS is a function of `(H, block)` alone, whatever the scratch, the counter and the streams hold. -/
def Obligations.CompressDependsOnHashAndBlockOnly : Prop :=
  ∀ s : State, (compress s).hash = foldBlock s.hash s.buf

/-! ## The buffer -/

/-- R47's two writing primitives, over bytes and words: `BufXorByte` changes one byte, to itself XOR `b`; `BufSetWord`
replaces one word; neither writes anything but `BUF`. -/
def Obligations.BufferPrimitivesWriteOnePlace : Prop :=
  (∀ (s : State) (w l : Nat) (b : Byte), w < 16 → l < 4 →
    (∀ p < 64, bufByte (bufXorByte w l b s).buf p =
      if p = 4 * w + l then bufByte s.buf p ^^^ b else bufByte s.buf p) ∧
    bufXorByte w l b s = { s with buf := (bufXorByte w l b s).buf }) ∧
  (∀ (s : State) (w : Nat) (v : Word), w < 16 →
    (∀ i < 16, readWord (bufSetWord w v s).buf i = if i = w then v else readWord s.buf i) ∧
    bufSetWord w v s = { s with buf := (bufSetWord w v s).buf })

/-- What holds after ABSORB (an inference the spec marks as its own, 42_streaming_buffer.md section 4): the counter, the
cursor derived from it, the zero lanes at the cursor, and what ABSORB does not write. -/
def Obligations.AbsorbMovesTheCursorByTheChunk : Prop :=
  ∀ (s : State) (data : List Byte),
    (absorb data s).bitlen.toNat = (s.bitlen.toNat + 8 * data.length) % 2 ^ 64 ∧
    cursorWord (absorb data s) = (blockPosition s + data.length) % 64 / 4 ∧
    cursorLane (absorb data s) = (blockPosition s + data.length) % 4 ∧
    (CursorLanesZero s → CursorLanesZero (absorb data s)) ∧
    (absorb data s).done = s.done ∧ (absorb data s).cmdIn = s.cmdIn ∧ (absorb data s).respOut = s.respOut

/-- One ABSORB runs COMPRESS `floor((p0 + n) / 64)` times (an inference the spec marks as its own), counted by the model's
own counter of free words, which each COMPRESS advances by 72 (log entry 2); with none, `H` is unchanged. -/
def Obligations.AbsorbCompressesOncePerCompletedBlock : Prop :=
  ∀ (s : State) (data : List Byte),
    (absorb data s).freeCount = s.freeCount + 72 * ((blockPosition s + data.length) / 64) ∧
    (blockPosition s + data.length < 64 → (absorb data s).hash = s.hash)

/-- The byte-serial reading (42_streaming_buffer.md section 4): where the unwritten lanes at the cursor are zero, ABSORB
of a chunk is ABSORB1 of its bytes one by one. The two states agree in the stale words of `BUF`, which the model keeps (log
entry 17), and in the free scratch and the model's own counter (log entry 2), whatever those hold. -/
def Obligations.AbsorbIsByteSerial : Prop :=
  ∀ (s : State) (data : List Byte), CursorLanesZero s → absorb data s = data.foldl absorb1 s

/-- An UPDATE that stays inside the block: it completes with `OK` (44_host_commands.md section 2), writes the chunk to the
byte positions from the cursor on, zeroes the rest of the word the cursor ends in, and leaves every other byte of `BUF`, `H`
and `DONE` alone. That the words above the cursor keep their bytes is a claim on stale words, which the model keeps as its
own reading (DEDUCED, log entry 17). -/
def Obligations.UpdateInsideABlockWritesTheChunkAndZeroesItsLastWord : Prop :=
  ∀ (s : State) (data : List Byte),
    s.done = false → s.bitlen.toNat + 8 * data.length < 2 ^ 64 →
    s.bitlen.toNat % 8 = 0 → CursorLanesZero s → blockPosition s + data.length < 64 →
    ∃ t, exec (.update data) s = .next t ∧
      (∀ j < data.length, bufByte t.buf (blockPosition s + j) = data.getD j 0) ∧
      (∀ p < blockPosition s, bufByte t.buf p = bufByte s.buf p) ∧
      (∀ p < 64, blockPosition s + data.length ≤ p →
        bufByte t.buf p = if p / 4 = (blockPosition s + data.length) / 4 then 0 else bufByte s.buf p) ∧
      t.hash = s.hash ∧ t.done = false ∧ t.bitlen.toNat = s.bitlen.toNat + 8 * data.length ∧
      t.cmdIn = s.cmdIn ∧ t.respOut = s.respOut ++ [0x00]

/-! ## Padding and digest -/

/-- R140: for a message of whole bytes `lenAfterMarker` is a multiple of 8 in 0 to 504, both divisions are exact, the
comparison is strict, and there are at most 63 zero bytes. -/
def Obligations.ZeroCountIsExact : Prop :=
  ∀ L : BitLength, L.toNat % 8 = 0 →
    lenAfterMarker L = (L.toNat + 8) % 512 ∧ lenAfterMarker L % 8 = 0 ∧ lenAfterMarker L ≤ 504 ∧
    (448 < lenAfterMarker L → lenAfterMarker L + 8 * zeroCount L = 448 + 512) ∧
    (lenAfterMarker L ≤ 448 → lenAfterMarker L + 8 * zeroCount L = 448) ∧
    zeroCount L ≤ 63

/-- The padding length by `r`, the message bytes in the block being assembled, and its consequences (inferences the spec
marks as its own, 43_padding_finalization.md section 1): the padding is the marker, the zeros and the length, 9 to 72 bytes,
and ends on a block boundary. -/
def Obligations.PaddingEndsOnABlockBoundary : Prop :=
  ∀ L : BitLength, L.toNat % 8 = 0 →
    padBytes L =
      0x80 :: (List.replicate
        (if L.toNat / 8 % 64 ≤ 55 then 55 - L.toNat / 8 % 64 else 119 - L.toNat / 8 % 64) 0 ++ be64 L) ∧
    9 ≤ (padBytes L).length ∧ (padBytes L).length ≤ 72 ∧ (L.toNat + 8 * (padBytes L).length) % 512 = 0

/-- The last 8 bytes of the padding are the original length, most significant byte first, and `BUF[14]` receives its upper
and `BUF[15]` its lower word (20_memory.md section 2). That FINAL leaves them there is a claim on stale words, since the
cursor is back at the start of the block: it rests on COMPRESS not clearing `BUF` (41_compression_core.md section 3), on the
corner cases of 43_padding_finalization.md section 4, and on the model's keeping stale words (DEDUCED, log entry 17). -/
def Obligations.LengthFieldEndsTheLastBlock : Prop :=
  ∀ s : State, s.done = false → s.bitlen.toNat % 8 = 0 →
    ((padBytes s.bitlen).drop ((padBytes s.bitlen).length - 8)).foldl (fun n b => 256 * n + b.toNat) 0
      = s.bitlen.toNat ∧
    ∃ t, exec .final s = .next t ∧
      readWord t.buf 14 = s.bitlen.extractLsb' 32 32 ∧ readWord t.buf 15 = s.bitlen.extractLsb' 0 32

/-- R144: byte `4i + j` of the digest is bits `31 - 8j` down to `24 - 8j` of `H[i]`. -/
def Obligations.DigestSerializesTheHash : Prop :=
  ∀ (hash : Vector Word 8) (i j : Nat), i < 8 → j < 4 →
    (digestOf hash).toList[4 * i + j]? = some ((readWord hash i).extractLsb' (24 - 8 * j) 8)

/-! ## Reset and the commands -/

/-- The reset state is that of `new()`, ACTIVE and with empty streams (70_reset_and_hazards.md section 1). That it is idle is
said as a step that answers the same state: the model's choice of how an engine waits (DESIGN CHOICE, log entry 3). -/
def Obligations.ResetIsTheNewState : Prop :=
  State.reset.hash = Config.IV ∧ (∀ i < 16, readWord State.reset.buf i = 0) ∧ State.reset.bitlen = 0 ∧
  State.reset.done = false ∧ mode State.reset = .active ∧
  State.reset.cmdIn = [] ∧ State.reset.respOut = [] ∧ step State.reset = .next State.reset

/-- R160: INIT, header `0x4000`, succeeds in every state, writes `H`, `BUF`, `BITLEN` and `DONE`, answers `OK` and touches
nothing else. -/
def Obligations.InitMakesANewInstance : Prop :=
  encode .init = [0x40, 0x00] ∧
  ∀ s : State, exec .init s = .next
    { s with hash := Config.IV, buf := Vector.replicate 16 0, bitlen := 0, done := false,
             respOut := s.respOut ++ [0x00] }

/-- R161: UPDATE's encoding, its two guards in their order, and its effect: a rejected chunk changes nothing but the
response stream, an accepted one is absorbed; an empty accepted chunk changes nothing either. -/
def Obligations.UpdateChecksThenAbsorbs : Prop :=
  (∀ data : List Byte, data.length ≤ 16383 →
    encode (.update data) =
      BitVec.ofNat 8 ((0x8000 + data.length) / 256) :: BitVec.ofNat 8 ((0x8000 + data.length) % 256) :: data) ∧
  ∀ (data : List Byte) (s : State),
    (s.done = true → exec (.update data) s = .next { s with respOut := s.respOut ++ [0x82] }) ∧
    (s.done = false → 2 ^ 64 ≤ s.bitlen.toNat + 8 * data.length →
      exec (.update data) s = .next { s with respOut := s.respOut ++ [0x83] }) ∧
    (s.done = false → s.bitlen.toNat + 8 * data.length < 2 ^ 64 →
      exec (.update data) s = .next { absorb data s with respOut := s.respOut ++ [0x00] } ∧
      (absorb data s).bitlen.toNat = s.bitlen.toNat + 8 * data.length) ∧
    (s.done = false → exec (.update []) s = .next { s with respOut := s.respOut ++ [0x00] })

/-- R142, R162: FINAL, header `0xC000`, pads when `DONE` is 0, then checks `BITLEN`, then answers the digest or `0x84`. -/
def Obligations.FinalPadsChecksAndAnswers : Prop :=
  encode .final = [0xC0, 0x00] ∧
  ∀ s : State,
    let p := if s.done then s else absorb (padBytes s.bitlen) { s with done := true }
    exec .final s = .next
      (if p.bitlen.toNat % 512 ≠ 0 then { p with respOut := s.respOut ++ [0x84] }
       else { p with respOut := s.respOut ++ 0x01 :: (digestOf p.hash).toList })

/-- FINAL always answers a digest when the invariants of a command boundary hold (the spec's own inference that the check
cannot fail): it completes, sets `DONE`, leaves whole blocks, consumes nothing more; on a FINALIZED engine it changes
nothing but the response stream. -/
def Obligations.FinalAlwaysAnswersADigest : Prop :=
  ∀ s : State, ByteAligned s → FinalizedIsWholeBlocks s →
    ∃ t, exec .final s = .next t ∧ t.respOut = s.respOut ++ 0x01 :: (digestOf t.hash).toList ∧
      t.done = true ∧ t.bitlen.toNat % 512 = 0 ∧ t.cmdIn = s.cmdIn ∧
      (s.done = true → t = { s with respOut := t.respOut })

/-- R145: a FINAL after a FINAL that answered a digest answers the same digest and changes nothing else. -/
def Obligations.SecondFinalRepeatsTheDigest : Prop :=
  ∀ (s t : State) (d : Digest), exec .final s = .next t → t.respOut = s.respOut ++ 0x01 :: d.toList →
    exec .final t = .next { t with respOut := t.respOut ++ 0x01 :: d.toList }

/-! ## Errors -/

/-- R182, R183: an encoded UPDATE after FINAL, of any length, and one that would reach 2^64 bits, consume their bytes, change
nothing else and answer `0x82` and `0x83`; after the first a FINAL still answers the digest. -/
def Obligations.RejectedUpdateDiscardsItsPayload : Prop :=
  ∀ (s : State) (data rest : List Byte), data.length ≤ 16383 → s.cmdIn = encode (.update data) ++ rest →
    (s.done = true →
      step s = .next { s with cmdIn := rest, respOut := s.respOut ++ [0x82] } ∧
      (s.bitlen.toNat % 512 = 0 →
        exec .final { s with cmdIn := rest, respOut := s.respOut ++ [0x82] } = .next
          { s with cmdIn := rest, respOut := s.respOut ++ [0x82] ++ 0x01 :: (digestOf s.hash).toList })) ∧
    (s.done = false → 2 ^ 64 ≤ s.bitlen.toNat + 8 * data.length →
      step s = .next { s with cmdIn := rest, respOut := s.respOut ++ [0x83] })

/-- R184: FINAL answers `0x84` exactly when `BITLEN` is no multiple of 512 after the padding step; `DONE` is 1 and the padding
stays absorbed; from then on every FINAL answers `0x84` and every UPDATE `0x82`, with the state unchanged, until INIT. -/
def Obligations.PadErrorLeavesADeadEngine : Prop :=
  ∀ s t : State, exec .final s = .next t →
    ((padOnce s).bitlen.toNat % 512 ≠ 0 ↔ t.respOut = s.respOut ++ [0x84]) ∧
    (t.respOut = s.respOut ++ [0x84] →
      t = { padOnce s with respOut := s.respOut ++ [0x84] } ∧ t.done = true ∧
      exec .final t = .next { t with respOut := t.respOut ++ [0x84] } ∧
      (∀ data, exec (.update data) t = .next { t with respOut := t.respOut ++ [0x82] }) ∧
      ∃ u, exec .init t = .next u ∧ u.hash = Config.IV ∧ u.bitlen = 0 ∧ u.done = false)

/-- R181: a header in `0x0000..0x3FFF`, `0x4001..0x7FFF` or `0xC001..0xFFFF` consumes its two bytes, changes no state and answers
`0x81`. -/
def Obligations.IllegalHeaderIsAnsweredWithAnError : Prop :=
  ∀ (s : State) (b0 b1 : Byte) (rest : List Byte), s.cmdIn = b0 :: b1 :: rest →
    (256 * b0.toNat + b1.toNat < 0x4000 ∨
      (0x4000 < 256 * b0.toNat + b1.toNat ∧ 256 * b0.toNat + b1.toNat < 0x8000) ∨
      0xC000 < 256 * b0.toNat + b1.toNat) →
    step s = .next { s with cmdIn := rest, respOut := s.respOut ++ [0x81] }

/-- R188: errors 1, 2 and 3 are precise (the state after the command is the state before it, less the consumed bytes and with
the response), and error 4 leaves the state that the padding step left. -/
def Obligations.ErrorsArePrecise : Prop :=
  ∀ (s t : State) (e : ErrorCode), step s = .next t → t.respOut = s.respOut ++ encodeResponse (.err e) →
    (e ≠ .padInvariant → t = { s with cmdIn := t.cmdIn, respOut := t.respOut }) ∧
    (e = .padInvariant → t = { padOnce { s with cmdIn := t.cmdIn } with respOut := t.respOut })

/-! ## Encoding -/

/-- The decoding algorithm on the header as a number, for every byte stream (30_encoding.md sections 3 and 4). On an
incomplete stream the engine waits with its state unchanged, and that this is a step answering the same state is the model's
choice (DESIGN CHOICE, log entry 3); an illegal header is answered with error 1 (60_exceptions.md section 1). -/
def Obligations.DecodingFollowsTheHeader : Prop :=
  decode [] = .incomplete ∧ (∀ b, decode [b] = .incomplete) ∧
  (∀ (b0 b1 : Byte) (rest : List Byte),
    (256 * b0.toNat + b1.toNat = 0x4000 → decode (b0 :: b1 :: rest) = .command .init rest) ∧
    (256 * b0.toNat + b1.toNat = 0xC000 → decode (b0 :: b1 :: rest) = .command .final rest) ∧
    (0x8000 ≤ 256 * b0.toNat + b1.toNat → 256 * b0.toNat + b1.toNat < 0xC000 →
      decode (b0 :: b1 :: rest) =
        if rest.length < 256 * b0.toNat + b1.toNat - 0x8000 then .incomplete
        else .command (.update (rest.take (256 * b0.toNat + b1.toNat - 0x8000)))
          (rest.drop (256 * b0.toNat + b1.toNat - 0x8000))) ∧
    (256 * b0.toNat + b1.toNat < 0x4000 ∨
      (0x4000 < 256 * b0.toNat + b1.toNat ∧ 256 * b0.toNat + b1.toNat < 0x8000) ∨
      0xC000 < 256 * b0.toNat + b1.toNat →
      decode (b0 :: b1 :: rest) = .illegal (BitVec.ofNat 16 (256 * b0.toNat + b1.toNat)) rest)) ∧
  (∀ s : State, decode s.cmdIn = .incomplete → step s = .next s) ∧
  (∀ (s : State) (hdr : Header) (rest : List Byte), decode s.cmdIn = .illegal hdr rest →
    step s = .next { s with cmdIn := rest, respOut := s.respOut ++ [0x81] })

/-- A stream decodes to a command exactly when it begins with that command's encoding and the command is well formed: decode
and encode agree in both directions, for every command and every operand. -/
def Obligations.DecodeAndEncodeAgree : Prop :=
  ∀ (bytes : List Byte) (i : Instr) (rest : List Byte),
    decode bytes = .command i rest ↔ i.wf = true ∧ bytes = encode i ++ rest

/-- R63: the rows of the opcode table are disjoint; a header that decodes to a command selects that command's row; and a header
is illegal exactly when it selects no row. -/
def Obligations.OpcodeRowsPartitionTheHeaders : Prop :=
  ∀ (hdr : Header) (rest : List Byte),
    (opRows.filter fun r => r.selects hdr).length ≤ 1 ∧
    (∀ i rest', decodeHeader hdr rest = .command i rest' → rowOf i ∈ opRows ∧ (rowOf i).selects hdr = true) ∧
    (decodeHeader hdr rest = .illegal hdr rest ↔ ∀ r ∈ opRows, r.selects hdr = false)

/-- Words written out bit by bit from 30_encoding.md decode to the commands they stand for. `decodeTableWord` reads a word
of the opcode table, and that the bits such a word does not have are payload bytes of zero is the model's choice (DESIGN
CHOICE, log entry 9): on the stream itself `80 03` alone is incomplete. -/
def Obligations.TableWordsDecode : Prop :=
  decodeTableWord 16 0b0100000000000000 = some .init ∧
  decodeTableWord 16 0b1000000000000011 = some (.update [0, 0, 0]) ∧
  decodeTableWord 16 0b1100000000000000 = some .final ∧
  decodeTableWord 16 0b0000000000000000 = none ∧ decodeTableWord 16 0b1111111111111111 = none ∧
  decode [0b10000000, 0b00000011, 0x61, 0x62, 0x63, 0xC0] = .command (.update [0x61, 0x62, 0x63]) [0xC0]

/-- A host can read the response stream back: each response is a prefix that names it, with the status bytes of
30_encoding.md section 5. -/
def Obligations.ResponsesCanBeReadBack : Prop :=
  (∀ (r : Response) (rest : List Byte), decodeResponse (encodeResponse r ++ rest) = some (r, rest)) ∧
  encodeResponse .ok = [0x00] ∧ (∀ d, encodeResponse (.digest d) = 0x01 :: d.toList) ∧
  encodeResponse (.err .illegalCmd) = [0x81] ∧ encodeResponse (.err .updateAfterFinal) = [0x82] ∧
  encodeResponse (.err .lenOverflow) = [0x83] ∧ encodeResponse (.err .padInvariant) = [0x84]

/-- R72: a long UPDATE is cut into chunks whose concatenation is its data, all of MAXCHUNK bytes but the last, which is empty
only when the data is; HASH and REFINAL expand as the table says. -/
def Obligations.PseudoInstructionsExpand : Prop :=
  (∀ data : List Byte, ∃ (full : List (List Byte)) (last : List Byte),
    updateCommands data = (full ++ [last]).map Instr.update ∧ (full ++ [last]).flatten = data ∧
    (∀ c ∈ full, c.length = 16383) ∧ last.length ≤ 16383 ∧ (last = [] → data = [])) ∧
  (∀ operands, assembleLine (.hash operands) =
    assembleLine .init ++ assembleLine (.update operands) ++ assembleLine .final) ∧
  assembleLine .refinal = [.final]

/-! ## The step -/

/-- A step runs the command that stands at the front of the stream, on the state with its bytes consumed. -/
def Obligations.StepRunsTheDecodedCommand : Prop :=
  ∀ (s : State) (i : Instr) (rest : List Byte),
    (decode s.cmdIn = .command i rest → step s = exec i { s with cmdIn := rest }) ∧
    (i.wf = true → s.cmdIn = encode i ++ rest → step s = exec i { s with cmdIn := rest })

/-- Every step goes on: it waits on an incomplete stream, or it consumes the bytes of one command and answers exactly one
response (30_encoding.md sections 3 and 5). That waiting is a step answering the same state is the model's choice (DESIGN
CHOICE, log entry 3). -/
def Obligations.EveryStepAnswersOnce : Prop :=
  ∀ s : State, ∃ t, step s = .next t ∧
    ((decode s.cmdIn = .incomplete ∧ t = s) ∨
      (decode s.cmdIn ≠ .incomplete ∧
        ∃ (r : Response) (used : List Byte), 2 ≤ used.length ∧ s.cmdIn = used ++ t.cmdIn ∧
          t.respOut = s.respOut ++ encodeResponse r))

/-- Bytes the host sends later never change what a complete command does: the step commutes with sending. That the host
sends between steps, onto a stream of any length, is the model's choice (DESIGN CHOICE, log entry 4). -/
def Obligations.LaterBytesDoNotDisturbACommand : Prop :=
  ∀ (s t : State) (more : List Byte), decode s.cmdIn ≠ .incomplete → step s = .next t →
    step (hostSend more s) = .next (hostSend more t)

/-- R27: `DONE` is 0 after reset; a step sets it only by FINAL, which always leaves it 1, and clears it only by INIT. -/
def Obligations.DoneIsSetByFinalAndClearedByInit : Prop :=
  State.reset.done = false ∧
  (∀ s t : State, exec .final s = .next t → t.done = true) ∧
  ∀ s t : State, step s = .next t →
    (s.done = false → t.done = true → ∃ rest, decode s.cmdIn = .command .final rest) ∧
    (s.done = true → t.done = false → ∃ rest, decode s.cmdIn = .command .init rest)

/-- `H` is written by INIT and by COMPRESS only: a step that changes it ran INIT, or ran COMPRESS at least once, as the model's
own counter of free words shows (log entry 2). -/
def Obligations.HashIsWrittenByInitAndCompressOnly : Prop :=
  ∀ s t : State, step s = .next t →
    t.hash = s.hash ∨ (∃ rest, decode s.cmdIn = .command .init rest) ∨ ∃ n, 0 < n ∧ t.freeCount = s.freeCount + 72 * n

/-- A reset of an idle engine discards everything and leaves what the reset state holds, but for the scratch and the model's
own counter (70_reset_and_hazards.md section 1). That it empties the response stream is the model's reading of `a pending
digest` (DEDUCED, log entry 5). -/
def Obligations.HostResetDiscardsEverything : Prop :=
  ∀ s : State, SameButScratch (hostReset s) State.reset

/-! ## Invariants -/

/-- The invariant of a command boundary holds at reset. -/
def Obligations.InvariantHoldsAtReset : Prop := Inv State.reset

/-- Every step, and every move of the host, keeps the invariant: `BITLEN` a multiple of 8, the unwritten lanes at the cursor
zero, a FINALIZED engine at a block boundary. Where the host's moves fall is the model's choice (log entries 4 and 5). -/
def Obligations.EveryMoveKeepsTheInvariant : Prop :=
  (∀ s t : State, Inv s → step s = .next t → Inv t) ∧ (∀ (m : Move) (s : State), Inv s → Inv (applyMove m s))

/-- In every state a host can bring the engine to, the registers are those of some message of fewer than 2^64 bits, with its
padding once FINALIZED: the closed form of `BUF` (its stale words as in log entry 17), the hash of the complete blocks, the
bit count. Where the host's moves fall is the model's choice (log entries 4 and 5). -/
def Obligations.ReachableStatesHoldAMessage : Prop := ∀ s : State, Reachable s → HoldsMessage s ∧ Inv s

/-- What no response depends on: engines that differ only in the scratch and in the words of `BUF` above the cursor take steps
to states that again differ only there, so they answer alike for ever. -/
def Obligations.StaleStorageIsUnobservable : Prop :=
  ∀ s t : State, SameToHost s t → ∃ s' t', step s = .next s' ∧ step t = .next t' ∧ SameToHost s' t'

/-! ## What the commands compute -/

/-- Chunk-invariance of the whole state: two accepted UPDATE commands leave what one with both chunks leaves, but for the
number of responses. The states agree in the free scratch and the model's own counter too (log entry 2), whatever those
hold. -/
def Obligations.UpdateIsChunkInvariant : Prop :=
  ∀ (s : State) (a b : List Byte), s.done = false → CursorLanesZero s →
    s.bitlen.toNat + 8 * (a.length + b.length) < 2 ^ 64 →
    ∃ t u v, exec (.update a) s = .next t ∧ exec (.update b) t = .next u ∧ exec (.update (a ++ b)) s = .next v ∧
      u = { v with respOut := s.respOut ++ [0x00, 0x00] } ∧ v.respOut = s.respOut ++ [0x00]

/-- UPDATE appends its chunk to the message: the closed form of `BUF` (its stale words as in log entry 17), the hash of the complete blocks and the bit count pass
from `message` to `message ++ data`. -/
def Obligations.UpdateAppendsToTheMessage : Prop :=
  ∀ (s : State) (message data : List Byte), s.done = false → Represents s message →
    s.bitlen.toNat + 8 * data.length < 2 ^ 64 →
    ∃ t, exec (.update data) s = .next t ∧ Represents t (message ++ data) ∧ t.done = false ∧
      t.respOut = s.respOut ++ [0x00]

/-- FINAL answers the SHA-256 digest of the message the engine holds, and then holds the padded message (the stale words of
`BUF` as in log entry 17). -/
def Obligations.FinalAnswersTheSha256Digest : Prop :=
  ∀ (s : State) (message : List Byte), s.done = false → Represents s message → 8 * message.length < 2 ^ 64 →
    ∃ t, exec .final s = .next t ∧ t.respOut = s.respOut ++ 0x01 :: (sha256 message).toList ∧ t.done = true ∧
      Represents t (message ++ padBytes (bitCount message))

/-- R166: from the initial state, any number of encoded UPDATE commands and one FINAL, sent as one byte stream, run to the end of
the stream and answer `OK` for each chunk and then the SHA-256 digest of the chunks' concatenation. -/
def Obligations.StreamOfChunksHashesTheirConcatenation : Prop :=
  ∀ (s : State) (chunks : List (List Byte)),
    s.hash = Config.IV → (∀ i < 16, readWord s.buf i = 0) → s.bitlen = 0 → s.done = false →
    (∀ c ∈ chunks, c.length ≤ 16383) → 8 * chunks.flatten.length < 2 ^ 64 →
    s.cmdIn = chunks.flatMap (fun c => encode (.update c)) ++ encode .final →
    ∃ t : State, core.run (chunks.length + 1) s = .next t ∧ t.cmdIn = [] ∧
      t.respOut = s.respOut ++ List.replicate chunks.length 0x00 ++ 0x01 :: (sha256 chunks.flatten).toList
end

