-- ==== Sys2Proof/Laws/State.lean ====
section
/-! SUPPORT. One lemma per field per update of the state, so that no proof unfolds an update. Each is true by rfl; where an
update writes the schedule or the rounds' result the definition is unfolded first, since comparing two whole states would
evaluate those. -/

namespace Sys2Proof.Machine

/-! ## setDone -/

@[simp] theorem setDone_hash (s : State) : (setDone s).hash = s.hash := rfl
@[simp] theorem setDone_buf (s : State) : (setDone s).buf = s.buf := rfl
@[simp] theorem setDone_bitlen (s : State) : (setDone s).bitlen = s.bitlen := rfl
@[simp] theorem setDone_done (s : State) : (setDone s).done = true := rfl
@[simp] theorem setDone_sched (s : State) : (setDone s).sched = s.sched := rfl
@[simp] theorem setDone_vars (s : State) : (setDone s).vars = s.vars := rfl
@[simp] theorem setDone_cmdIn (s : State) : (setDone s).cmdIn = s.cmdIn := rfl
@[simp] theorem setDone_respOut (s : State) : (setDone s).respOut = s.respOut := rfl
@[simp] theorem setDone_freeCount (s : State) : (setDone s).freeCount = s.freeCount := rfl

/-! ## bufXorByte -/

@[simp] theorem bufXorByte_hash (w l : Nat) (b : Byte) (s : State) : (bufXorByte w l b s).hash = s.hash := rfl
@[simp] theorem bufXorByte_buf (w l : Nat) (b : Byte) (s : State) :
    (bufXorByte w l b s).buf = writeWord s.buf w (readWord s.buf w ^^^ byteInLane b l) := rfl
@[simp] theorem bufXorByte_bitlen (w l : Nat) (b : Byte) (s : State) : (bufXorByte w l b s).bitlen = s.bitlen := rfl
@[simp] theorem bufXorByte_done (w l : Nat) (b : Byte) (s : State) : (bufXorByte w l b s).done = s.done := rfl
@[simp] theorem bufXorByte_sched (w l : Nat) (b : Byte) (s : State) : (bufXorByte w l b s).sched = s.sched := rfl
@[simp] theorem bufXorByte_vars (w l : Nat) (b : Byte) (s : State) : (bufXorByte w l b s).vars = s.vars := rfl
@[simp] theorem bufXorByte_cmdIn (w l : Nat) (b : Byte) (s : State) : (bufXorByte w l b s).cmdIn = s.cmdIn := rfl
@[simp] theorem bufXorByte_respOut (w l : Nat) (b : Byte) (s : State) :
    (bufXorByte w l b s).respOut = s.respOut := rfl
@[simp] theorem bufXorByte_freeCount (w l : Nat) (b : Byte) (s : State) :
    (bufXorByte w l b s).freeCount = s.freeCount := rfl

/-! ## bufSetWord -/

@[simp] theorem bufSetWord_hash (w : Nat) (v : Word) (s : State) : (bufSetWord w v s).hash = s.hash := rfl
@[simp] theorem bufSetWord_buf (w : Nat) (v : Word) (s : State) : (bufSetWord w v s).buf = writeWord s.buf w v := rfl
@[simp] theorem bufSetWord_bitlen (w : Nat) (v : Word) (s : State) : (bufSetWord w v s).bitlen = s.bitlen := rfl
@[simp] theorem bufSetWord_done (w : Nat) (v : Word) (s : State) : (bufSetWord w v s).done = s.done := rfl
@[simp] theorem bufSetWord_sched (w : Nat) (v : Word) (s : State) : (bufSetWord w v s).sched = s.sched := rfl
@[simp] theorem bufSetWord_vars (w : Nat) (v : Word) (s : State) : (bufSetWord w v s).vars = s.vars := rfl
@[simp] theorem bufSetWord_cmdIn (w : Nat) (v : Word) (s : State) : (bufSetWord w v s).cmdIn = s.cmdIn := rfl
@[simp] theorem bufSetWord_respOut (w : Nat) (v : Word) (s : State) : (bufSetWord w v s).respOut = s.respOut := rfl
@[simp] theorem bufSetWord_freeCount (w : Nat) (v : Word) (s : State) :
    (bufSetWord w v s).freeCount = s.freeCount := rfl

/-! ## advanceBitlen -/

@[simp] theorem advanceBitlen_hash (n : Nat) (s : State) : (advanceBitlen n s).hash = s.hash := rfl
@[simp] theorem advanceBitlen_buf (n : Nat) (s : State) : (advanceBitlen n s).buf = s.buf := rfl
@[simp] theorem advanceBitlen_bitlen (n : Nat) (s : State) :
    (advanceBitlen n s).bitlen = s.bitlen + BitVec.ofNat 64 (8 * n) := rfl
@[simp] theorem advanceBitlen_done (n : Nat) (s : State) : (advanceBitlen n s).done = s.done := rfl
@[simp] theorem advanceBitlen_sched (n : Nat) (s : State) : (advanceBitlen n s).sched = s.sched := rfl
@[simp] theorem advanceBitlen_vars (n : Nat) (s : State) : (advanceBitlen n s).vars = s.vars := rfl
@[simp] theorem advanceBitlen_cmdIn (n : Nat) (s : State) : (advanceBitlen n s).cmdIn = s.cmdIn := rfl
@[simp] theorem advanceBitlen_respOut (n : Nat) (s : State) : (advanceBitlen n s).respOut = s.respOut := rfl
@[simp] theorem advanceBitlen_freeCount (n : Nat) (s : State) : (advanceBitlen n s).freeCount = s.freeCount := rfl

/-! ## initialise -/

@[simp] theorem initialise_hash (s : State) : (initialise s).hash = Config.IV := rfl
@[simp] theorem initialise_buf (s : State) : (initialise s).buf = Vector.replicate 16 0 := rfl
@[simp] theorem initialise_bitlen (s : State) : (initialise s).bitlen = 0 := rfl
@[simp] theorem initialise_done (s : State) : (initialise s).done = false := rfl
@[simp] theorem initialise_sched (s : State) : (initialise s).sched = s.sched := rfl
@[simp] theorem initialise_vars (s : State) : (initialise s).vars = s.vars := rfl
@[simp] theorem initialise_cmdIn (s : State) : (initialise s).cmdIn = s.cmdIn := rfl
@[simp] theorem initialise_respOut (s : State) : (initialise s).respOut = s.respOut := rfl
@[simp] theorem initialise_freeCount (s : State) : (initialise s).freeCount = s.freeCount := rfl

/-! ## releaseScratch -/

@[simp] theorem releaseScratch_hash (s : State) : (releaseScratch s).hash = s.hash := by unfold releaseScratch; rfl
@[simp] theorem releaseScratch_buf (s : State) : (releaseScratch s).buf = s.buf := by unfold releaseScratch; rfl
@[simp] theorem releaseScratch_bitlen (s : State) : (releaseScratch s).bitlen = s.bitlen := by unfold releaseScratch; rfl
@[simp] theorem releaseScratch_done (s : State) : (releaseScratch s).done = s.done := by unfold releaseScratch; rfl
@[simp] theorem releaseScratch_sched (s : State) : (releaseScratch s).sched = freeSchedule s.freeCount := by unfold releaseScratch; rfl
@[simp] theorem releaseScratch_vars (s : State) : (releaseScratch s).vars = freeVars (s.freeCount + 64) := by unfold releaseScratch; rfl
@[simp] theorem releaseScratch_cmdIn (s : State) : (releaseScratch s).cmdIn = s.cmdIn := by unfold releaseScratch; rfl
@[simp] theorem releaseScratch_respOut (s : State) : (releaseScratch s).respOut = s.respOut := by unfold releaseScratch; rfl
@[simp] theorem releaseScratch_freeCount (s : State) :
    (releaseScratch s).freeCount = s.freeCount + scratchWords := by unfold releaseScratch; rfl

/-! ## respond -/

@[simp] theorem respond_hash (r : Response) (s : State) : (respond r s).hash = s.hash := rfl
@[simp] theorem respond_buf (r : Response) (s : State) : (respond r s).buf = s.buf := rfl
@[simp] theorem respond_bitlen (r : Response) (s : State) : (respond r s).bitlen = s.bitlen := rfl
@[simp] theorem respond_done (r : Response) (s : State) : (respond r s).done = s.done := rfl
@[simp] theorem respond_sched (r : Response) (s : State) : (respond r s).sched = s.sched := rfl
@[simp] theorem respond_vars (r : Response) (s : State) : (respond r s).vars = s.vars := rfl
@[simp] theorem respond_cmdIn (r : Response) (s : State) : (respond r s).cmdIn = s.cmdIn := rfl
@[simp] theorem respond_respOut (r : Response) (s : State) :
    (respond r s).respOut = s.respOut ++ encodeResponse r := rfl
@[simp] theorem respond_freeCount (r : Response) (s : State) : (respond r s).freeCount = s.freeCount := rfl

/-! ## raiseError -/

@[simp] theorem raiseError_hash (e : ErrorCode) (s : State) : (raiseError e s).hash = s.hash := rfl
@[simp] theorem raiseError_buf (e : ErrorCode) (s : State) : (raiseError e s).buf = s.buf := rfl
@[simp] theorem raiseError_bitlen (e : ErrorCode) (s : State) : (raiseError e s).bitlen = s.bitlen := rfl
@[simp] theorem raiseError_done (e : ErrorCode) (s : State) : (raiseError e s).done = s.done := rfl
@[simp] theorem raiseError_sched (e : ErrorCode) (s : State) : (raiseError e s).sched = s.sched := rfl
@[simp] theorem raiseError_vars (e : ErrorCode) (s : State) : (raiseError e s).vars = s.vars := rfl
@[simp] theorem raiseError_cmdIn (e : ErrorCode) (s : State) : (raiseError e s).cmdIn = s.cmdIn := rfl
@[simp] theorem raiseError_respOut (e : ErrorCode) (s : State) :
    (raiseError e s).respOut = s.respOut ++ encodeResponse (.err e) := rfl
@[simp] theorem raiseError_freeCount (e : ErrorCode) (s : State) : (raiseError e s).freeCount = s.freeCount := rfl

/-! ## consume -/

@[simp] theorem consume_hash (rest : List Byte) (s : State) : (consume rest s).hash = s.hash := rfl
@[simp] theorem consume_buf (rest : List Byte) (s : State) : (consume rest s).buf = s.buf := rfl
@[simp] theorem consume_bitlen (rest : List Byte) (s : State) : (consume rest s).bitlen = s.bitlen := rfl
@[simp] theorem consume_done (rest : List Byte) (s : State) : (consume rest s).done = s.done := rfl
@[simp] theorem consume_sched (rest : List Byte) (s : State) : (consume rest s).sched = s.sched := rfl
@[simp] theorem consume_vars (rest : List Byte) (s : State) : (consume rest s).vars = s.vars := rfl
@[simp] theorem consume_cmdIn (rest : List Byte) (s : State) : (consume rest s).cmdIn = rest := rfl
@[simp] theorem consume_respOut (rest : List Byte) (s : State) : (consume rest s).respOut = s.respOut := rfl
@[simp] theorem consume_freeCount (rest : List Byte) (s : State) : (consume rest s).freeCount = s.freeCount := rfl

/-! ## runSchedule -/

@[simp] theorem runSchedule_hash (s : State) : (runSchedule s).hash = s.hash := by unfold runSchedule; rfl
@[simp] theorem runSchedule_buf (s : State) : (runSchedule s).buf = s.buf := by unfold runSchedule; rfl
@[simp] theorem runSchedule_bitlen (s : State) : (runSchedule s).bitlen = s.bitlen := by unfold runSchedule; rfl
@[simp] theorem runSchedule_done (s : State) : (runSchedule s).done = s.done := by unfold runSchedule; rfl
@[simp] theorem runSchedule_sched (s : State) : (runSchedule s).sched = schedule s.sched s.buf := by unfold runSchedule; rfl
@[simp] theorem runSchedule_vars (s : State) : (runSchedule s).vars = s.vars := by unfold runSchedule; rfl
@[simp] theorem runSchedule_cmdIn (s : State) : (runSchedule s).cmdIn = s.cmdIn := by unfold runSchedule; rfl
@[simp] theorem runSchedule_respOut (s : State) : (runSchedule s).respOut = s.respOut := by unfold runSchedule; rfl
@[simp] theorem runSchedule_freeCount (s : State) : (runSchedule s).freeCount = s.freeCount := by unfold runSchedule; rfl

/-! ## runSeed -/

@[simp] theorem runSeed_hash (s : State) : (runSeed s).hash = s.hash := by unfold runSeed; rfl
@[simp] theorem runSeed_buf (s : State) : (runSeed s).buf = s.buf := by unfold runSeed; rfl
@[simp] theorem runSeed_bitlen (s : State) : (runSeed s).bitlen = s.bitlen := by unfold runSeed; rfl
@[simp] theorem runSeed_done (s : State) : (runSeed s).done = s.done := by unfold runSeed; rfl
@[simp] theorem runSeed_sched (s : State) : (runSeed s).sched = s.sched := by unfold runSeed; rfl
@[simp] theorem runSeed_vars (s : State) : (runSeed s).vars = seedVars s.hash := by unfold runSeed; rfl
@[simp] theorem runSeed_cmdIn (s : State) : (runSeed s).cmdIn = s.cmdIn := by unfold runSeed; rfl
@[simp] theorem runSeed_respOut (s : State) : (runSeed s).respOut = s.respOut := by unfold runSeed; rfl
@[simp] theorem runSeed_freeCount (s : State) : (runSeed s).freeCount = s.freeCount := by unfold runSeed; rfl

/-! ## runRounds -/

@[simp] theorem runRounds_hash (s : State) : (runRounds s).hash = s.hash := by unfold runRounds; rfl
@[simp] theorem runRounds_buf (s : State) : (runRounds s).buf = s.buf := by unfold runRounds; rfl
@[simp] theorem runRounds_bitlen (s : State) : (runRounds s).bitlen = s.bitlen := by unfold runRounds; rfl
@[simp] theorem runRounds_done (s : State) : (runRounds s).done = s.done := by unfold runRounds; rfl
@[simp] theorem runRounds_sched (s : State) : (runRounds s).sched = s.sched := by unfold runRounds; rfl
@[simp] theorem runRounds_vars (s : State) : (runRounds s).vars = allRounds s.sched s.vars := by unfold runRounds; rfl
@[simp] theorem runRounds_cmdIn (s : State) : (runRounds s).cmdIn = s.cmdIn := by unfold runRounds; rfl
@[simp] theorem runRounds_respOut (s : State) : (runRounds s).respOut = s.respOut := by unfold runRounds; rfl
@[simp] theorem runRounds_freeCount (s : State) : (runRounds s).freeCount = s.freeCount := by unfold runRounds; rfl

/-! ## runAddBack -/

@[simp] theorem runAddBack_hash (s : State) : (runAddBack s).hash = addBack s.hash s.vars := by unfold runAddBack; rfl
@[simp] theorem runAddBack_buf (s : State) : (runAddBack s).buf = s.buf := by unfold runAddBack; rfl
@[simp] theorem runAddBack_bitlen (s : State) : (runAddBack s).bitlen = s.bitlen := by unfold runAddBack; rfl
@[simp] theorem runAddBack_done (s : State) : (runAddBack s).done = s.done := by unfold runAddBack; rfl
@[simp] theorem runAddBack_sched (s : State) : (runAddBack s).sched = s.sched := by unfold runAddBack; rfl
@[simp] theorem runAddBack_vars (s : State) : (runAddBack s).vars = s.vars := by unfold runAddBack; rfl
@[simp] theorem runAddBack_cmdIn (s : State) : (runAddBack s).cmdIn = s.cmdIn := by unfold runAddBack; rfl
@[simp] theorem runAddBack_respOut (s : State) : (runAddBack s).respOut = s.respOut := by unfold runAddBack; rfl
@[simp] theorem runAddBack_freeCount (s : State) : (runAddBack s).freeCount = s.freeCount := by unfold runAddBack; rfl

/-! ## compress -/

@[simp] theorem compress_hash (s : State) :
    (compress s).hash = addBack s.hash (allRounds (schedule s.sched s.buf) (seedVars s.hash)) := by unfold compress; simp
@[simp] theorem compress_buf (s : State) : (compress s).buf = s.buf := by unfold compress; simp
@[simp] theorem compress_bitlen (s : State) : (compress s).bitlen = s.bitlen := by unfold compress; simp
@[simp] theorem compress_done (s : State) : (compress s).done = s.done := by unfold compress; simp
@[simp] theorem compress_sched (s : State) : (compress s).sched = freeSchedule s.freeCount := by unfold compress; simp
@[simp] theorem compress_vars (s : State) : (compress s).vars = freeVars (s.freeCount + 64) := by unfold compress; simp
@[simp] theorem compress_cmdIn (s : State) : (compress s).cmdIn = s.cmdIn := by unfold compress; simp
@[simp] theorem compress_respOut (s : State) : (compress s).respOut = s.respOut := by unfold compress; simp
@[simp] theorem compress_freeCount (s : State) : (compress s).freeCount = s.freeCount + scratchWords := by unfold compress; simp

/-! ## hostSend -/

@[simp] theorem hostSend_hash (bytes : List Byte) (s : State) : (hostSend bytes s).hash = s.hash := rfl
@[simp] theorem hostSend_buf (bytes : List Byte) (s : State) : (hostSend bytes s).buf = s.buf := rfl
@[simp] theorem hostSend_bitlen (bytes : List Byte) (s : State) : (hostSend bytes s).bitlen = s.bitlen := rfl
@[simp] theorem hostSend_done (bytes : List Byte) (s : State) : (hostSend bytes s).done = s.done := rfl
@[simp] theorem hostSend_sched (bytes : List Byte) (s : State) : (hostSend bytes s).sched = s.sched := rfl
@[simp] theorem hostSend_vars (bytes : List Byte) (s : State) : (hostSend bytes s).vars = s.vars := rfl
@[simp] theorem hostSend_cmdIn (bytes : List Byte) (s : State) : (hostSend bytes s).cmdIn = s.cmdIn ++ bytes := rfl
@[simp] theorem hostSend_respOut (bytes : List Byte) (s : State) : (hostSend bytes s).respOut = s.respOut := rfl
@[simp] theorem hostSend_freeCount (bytes : List Byte) (s : State) : (hostSend bytes s).freeCount = s.freeCount := rfl

/-! ## hostTake -/

@[simp] theorem hostTake_hash (n : Nat) (s : State) : (hostTake n s).hash = s.hash := rfl
@[simp] theorem hostTake_buf (n : Nat) (s : State) : (hostTake n s).buf = s.buf := rfl
@[simp] theorem hostTake_bitlen (n : Nat) (s : State) : (hostTake n s).bitlen = s.bitlen := rfl
@[simp] theorem hostTake_done (n : Nat) (s : State) : (hostTake n s).done = s.done := rfl
@[simp] theorem hostTake_sched (n : Nat) (s : State) : (hostTake n s).sched = s.sched := rfl
@[simp] theorem hostTake_vars (n : Nat) (s : State) : (hostTake n s).vars = s.vars := rfl
@[simp] theorem hostTake_cmdIn (n : Nat) (s : State) : (hostTake n s).cmdIn = s.cmdIn := rfl
@[simp] theorem hostTake_respOut (n : Nat) (s : State) : (hostTake n s).respOut = s.respOut.drop n := rfl
@[simp] theorem hostTake_freeCount (n : Nat) (s : State) : (hostTake n s).freeCount = s.freeCount := rfl

/-! ## hostReset -/

@[simp] theorem hostReset_hash (s : State) : (hostReset s).hash = Config.IV := by unfold hostReset; simp
@[simp] theorem hostReset_buf (s : State) : (hostReset s).buf = Vector.replicate 16 0 := by unfold hostReset; simp
@[simp] theorem hostReset_bitlen (s : State) : (hostReset s).bitlen = 0 := by unfold hostReset; simp
@[simp] theorem hostReset_done (s : State) : (hostReset s).done = false := by unfold hostReset; simp
@[simp] theorem hostReset_sched (s : State) : (hostReset s).sched = freeSchedule s.freeCount := by unfold hostReset; simp
@[simp] theorem hostReset_vars (s : State) : (hostReset s).vars = freeVars (s.freeCount + 64) := by unfold hostReset; simp
@[simp] theorem hostReset_cmdIn (s : State) : (hostReset s).cmdIn = [] := by unfold hostReset; simp
@[simp] theorem hostReset_respOut (s : State) : (hostReset s).respOut = [] := by unfold hostReset; simp
@[simp] theorem hostReset_freeCount (s : State) : (hostReset s).freeCount = s.freeCount + scratchWords := by unfold hostReset; simp

/-! ## withFetchWord -/

@[simp] theorem withFetchWord_hash (s : State) (nbits word : Nat) : (s.withFetchWord nbits word).hash = s.hash := rfl
@[simp] theorem withFetchWord_buf (s : State) (nbits word : Nat) : (s.withFetchWord nbits word).buf = s.buf := rfl
@[simp] theorem withFetchWord_bitlen (s : State) (nbits word : Nat) :
    (s.withFetchWord nbits word).bitlen = s.bitlen := rfl
@[simp] theorem withFetchWord_done (s : State) (nbits word : Nat) : (s.withFetchWord nbits word).done = s.done := rfl
@[simp] theorem withFetchWord_sched (s : State) (nbits word : Nat) :
    (s.withFetchWord nbits word).sched = s.sched := rfl
@[simp] theorem withFetchWord_vars (s : State) (nbits word : Nat) : (s.withFetchWord nbits word).vars = s.vars := rfl
@[simp] theorem withFetchWord_cmdIn (s : State) (nbits word : Nat) :
    (s.withFetchWord nbits word).cmdIn = tableBytes nbits word ++ s.cmdIn := rfl
@[simp] theorem withFetchWord_respOut (s : State) (nbits word : Nat) :
    (s.withFetchWord nbits word).respOut = s.respOut := rfl
@[simp] theorem withFetchWord_freeCount (s : State) (nbits word : Nat) :
    (s.withFetchWord nbits word).freeCount = s.freeCount := rfl

@[simp] theorem await_eq (s : State) : await s = s := rfl

end Sys2Proof.Machine
end

