-- ==== Sys2Proof/Laws/Compression.lean ====
section
/-! SUPPORT. Everything COMPRESS can do (spec/41_compression_core.md R102, R104). -/

namespace Sys2Proof.Machine

/-- COMPRESS writes the hash state and the scratch, and draws one release of free words; nothing else changes. -/
theorem compress_spec (s : State) :
    compress s =
      { s with
        hash := addBack s.hash (allRounds (schedule s.sched s.buf) (seedVars s.hash))
        sched := freeSchedule s.freeCount
        vars := freeVars (s.freeCount + 64)
        freeCount := s.freeCount + scratchWords } := by
  simp only [compress, releaseScratch, runAddBack, runRounds, runSeed, runSchedule]

end Sys2Proof.Machine
end

