-- ==== Sys2Proof/Laws/Operands.lean ====
section
/-! SUPPORT. What reading and writing an array and a lane can do, once for all arrays and words. -/

namespace Sys2Proof.Machine

/-! ## Arrays -/

@[simp] theorem readWord_writeWord_same {n : Nat} (arr : Vector Word n) {i : Nat} (h : i < n) (v : Word) :
    readWord (writeWord arr i v) i = v := by
  simp [readWord, writeWord, h]

theorem readWord_writeWord_other {n : Nat} (arr : Vector Word n) {i j : Nat} (h : i ≠ j) (v : Word) :
    readWord (writeWord arr i v) j = readWord arr j := by
  simp [readWord, writeWord, h]

@[simp] theorem readWord_replicate_zero (n i : Nat) : readWord (Vector.replicate n (0 : Word)) i = 0 := by
  unfold readWord
  by_cases h : i < n <;> simp [h]

/-- Two arrays that read alike at every index in range are equal. -/
theorem eq_of_readWord_eq {n : Nat} {u v : Vector Word n} (h : ∀ i < n, readWord u i = readWord v i) : u = v := by
  ext i hi : 1
  simpa [readWord, hi] using h i hi

/-! ## Lanes -/

@[simp] theorem lane_zero (l : Nat) : lane 0 l = 0 := by simp [lane]

theorem lane_xor (u v : Word) (l : Nat) : lane (u ^^^ v) l = lane u l ^^^ lane v l := by
  ext i hi
  simp [lane]

theorem lane_byteInLane_same (b : Byte) {l : Nat} (h : l < 4) : lane (byteInLane b l) l = b := by
  ext i hi
  have : 8 * (3 - l) + i < 32 := by omega
  simp [lane, byteInLane, this, hi]

theorem lane_byteInLane_other (b : Byte) {l m : Nat} (hl : l < 4) (hm : m < 4) (h : l ≠ m) :
    lane (byteInLane b l) m = 0 := by
  ext i hi
  simp [lane, byteInLane]
  intro _ h1 _
  exact BitVec.getLsbD_of_ge _ _ (by omega)

end Sys2Proof.Machine
end

