-- ==== Sys2Proof/Laws/Absorb.lean ====
section
/-! SUPPORT. What the parts of ABSORB can do and what they leave alone (spec/42_streaming_buffer.md R120, R122, R124). -/

namespace Sys2Proof.Machine

@[simp] theorem xorBytes_nil (w l : Nat) (s : State) : xorBytes w l [] s = s := rfl

@[simp] theorem xorBytes_cons (w l : Nat) (b : Byte) (rest : List Byte) (s : State) :
    xorBytes w l (b :: rest) s = xorBytes w (l + 1) rest (bufXorByte w l b s) := rfl

/-- Inserting bytes by exclusive-or writes the buffer and nothing else. -/
theorem xorBytes_frame (w : Nat) (data : List Byte) (l : Nat) (s : State) :
    xorBytes w l data s = { s with buf := (xorBytes w l data s).buf } := by
  induction data generalizing l s with
  | nil => rfl
  | cons b rest ih => rw [xorBytes_cons, ih]; simp only [bufXorByte]

/-- Inserting bytes into word `w` leaves every other word of the buffer alone. -/
theorem xorBytes_readWord_other {w i : Nat} (h : w ≠ i) (data : List Byte) (l : Nat) (s : State) :
    readWord (xorBytes w l data s).buf i = readWord s.buf i := by
  induction data generalizing l s with
  | nil => rfl
  | cons b rest ih => rw [xorBytes_cons, ih, bufXorByte_buf, readWord_writeWord_other _ h]

/-- The completion of a word either ends a block or moves the cursor on. -/
theorem wordCompleted_cases (w : Nat) (s : State) :
    (w + 1 = 16 ∧ wordCompleted w s = (0, compress s)) ∨ (w + 1 ≠ 16 ∧ wordCompleted w s = (w + 1, s)) := by
  unfold wordCompleted
  by_cases h : w + 1 = 16
  · exact .inl ⟨h, if_pos h⟩
  · exact .inr ⟨h, if_neg h⟩

/-- What no part of ABSORB from step 5 on writes. -/
structure OutsideAbsorb (s t : State) : Prop where
  bitlen : t.bitlen = s.bitlen
  done : t.done = s.done
  cmdIn : t.cmdIn = s.cmdIn
  respOut : t.respOut = s.respOut

theorem OutsideAbsorb.refl (s : State) : OutsideAbsorb s s := ⟨rfl, rfl, rfl, rfl⟩

theorem OutsideAbsorb.trans {s t u : State} (h : OutsideAbsorb s t) (k : OutsideAbsorb t u) : OutsideAbsorb s u :=
  ⟨k.bitlen.trans h.bitlen, k.done.trans h.done, k.cmdIn.trans h.cmdIn, k.respOut.trans h.respOut⟩

theorem bufSetWord_outside (w : Nat) (v : Word) (s : State) : OutsideAbsorb s (bufSetWord w v s) :=
  ⟨by simp, by simp, by simp, by simp⟩

theorem xorBytes_outside (w l : Nat) (data : List Byte) (s : State) : OutsideAbsorb s (xorBytes w l data s) := by
  rw [xorBytes_frame]
  exact ⟨rfl, rfl, rfl, rfl⟩

theorem wordCompleted_outside (w : Nat) (s : State) : OutsideAbsorb s (wordCompleted w s).2 := by
  obtain ⟨_, h⟩ | ⟨_, h⟩ := wordCompleted_cases w s <;> rw [h]
  · exact ⟨by simp, by simp, by simp, by simp⟩
  · exact .refl s

theorem absorbWords_outside (data : List Byte) (w : Nat) (s : State) : OutsideAbsorb s (absorbWords data w s) := by
  induction data, w, s using absorbWords.induct with
  | case1 b0 b1 b2 b3 rest w s ih =>
    rw [absorbWords]
    exact ((bufSetWord_outside _ _ _).trans (wordCompleted_outside _ _)).trans ih
  | case2 left w s h =>
    rw [absorbWords.eq_2 _ _ _ h]
    exact (bufSetWord_outside _ _ _).trans (xorBytes_outside _ _ _ _)

theorem absorbBody_outside (w offset : Nat) (data : List Byte) (s : State) :
    OutsideAbsorb s (absorbBody w offset data s) := by
  unfold absorbBody
  split
  · exact .refl s
  · split
    · exact (wordCompleted_outside _ _).trans (absorbWords_outside _ _ _)
    · exact absorbWords_outside _ _ _

@[simp] theorem absorb_nil (s : State) : absorb [] s = s := rfl

/-- ABSORB of a chunk that is not empty, in its three stages. -/
theorem absorb_of_ne_nil {data : List Byte} (h : data ≠ []) (s : State) :
    absorb data s =
      absorbBody (cursorWord s) (headNeeded s) data
        (advanceBitlen data.length (xorBytes (cursorWord s) (cursorLane s) (data.take (headNeeded s)) s)) := by
  unfold absorb
  rw [if_neg (by simpa using h)]

/-- ABSORB never writes `DONE` or the streams, and advances `BITLEN` by `8n`. -/
theorem absorb_spec (data : List Byte) (s : State) :
    (absorb data s).bitlen = s.bitlen + BitVec.ofNat 64 (8 * data.length) ∧ (absorb data s).done = s.done ∧
      (absorb data s).cmdIn = s.cmdIn ∧ (absorb data s).respOut = s.respOut := by
  by_cases h : data = []
  · simp [h]
  · rw [absorb_of_ne_nil h]
    have hx := xorBytes_outside (cursorWord s) (cursorLane s) (data.take (headNeeded s)) s
    have hb := absorbBody_outside (cursorWord s) (headNeeded s) data
      (advanceBitlen data.length (xorBytes (cursorWord s) (cursorLane s) (data.take (headNeeded s)) s))
    exact ⟨by rw [hb.bitlen, advanceBitlen_bitlen, hx.bitlen], by rw [hb.done, advanceBitlen_done, hx.done],
      by rw [hb.cmdIn, advanceBitlen_cmdIn, hx.cmdIn], by rw [hb.respOut, advanceBitlen_respOut, hx.respOut]⟩

@[simp] theorem absorb_bitlen (data : List Byte) (s : State) :
    (absorb data s).bitlen = s.bitlen + BitVec.ofNat 64 (8 * data.length) := (absorb_spec data s).1

@[simp] theorem absorb_done (data : List Byte) (s : State) : (absorb data s).done = s.done := (absorb_spec data s).2.1

@[simp] theorem absorb_cmdIn (data : List Byte) (s : State) : (absorb data s).cmdIn = s.cmdIn :=
  (absorb_spec data s).2.2.1

@[simp] theorem absorb_respOut (data : List Byte) (s : State) : (absorb data s).respOut = s.respOut :=
  (absorb_spec data s).2.2.2

end Sys2Proof.Machine
end

