-- ==== Sys2Proof/Laws/Commands.lean ====
section
/-! SUPPORT. Everything a command and a step can do, once (spec/44_host_commands.md R160 to R162, spec/30_encoding.md
R66). -/

namespace Sys2Proof.Machine

/-! ## FINALIZE -/

theorem padOnce_of_done {s : State} (h : s.done = true) : padOnce s = s := by simp [padOnce, h]

theorem padOnce_of_active {s : State} (h : s.done = false) : padOnce s = absorb (padBytes s.bitlen) (setDone s) := by
  simp [padOnce, h]

@[simp] theorem padOnce_done (s : State) : (padOnce s).done = true := by
  cases h : s.done
  · rw [padOnce_of_active h]; simp
  · rw [padOnce_of_done h, h]

@[simp] theorem padOnce_cmdIn (s : State) : (padOnce s).cmdIn = s.cmdIn := by
  cases h : s.done
  · rw [padOnce_of_active h]; simp
  · rw [padOnce_of_done h]

@[simp] theorem padOnce_respOut (s : State) : (padOnce s).respOut = s.respOut := by
  cases h : s.done
  · rw [padOnce_of_active h]; simp
  · rw [padOnce_of_done h]

/-! ## The commands -/

theorem exec_init (s : State) : exec .init s = .next (respond .ok (initialise s)) := rfl

theorem exec_update_finalized {s : State} (h : s.done = true) (data : List Byte) :
    exec (.update data) s = .next (raiseError .updateAfterFinal s) := by
  simp [exec, execUpdate, h]

theorem exec_update_overflow {s : State} {data : List Byte} (h : s.done = false)
    (k : lengthOverflows s data.length = true) : exec (.update data) s = .next (raiseError .lenOverflow s) := by
  simp [exec, execUpdate, h, k]

theorem exec_update_accepted {s : State} {data : List Byte} (h : s.done = false)
    (k : lengthOverflows s data.length = false) : exec (.update data) s = .next (respond .ok (absorb data s)) := by
  simp [exec, execUpdate, h, k]

theorem exec_final_digest {s : State} (h : padInvariantBroken (padOnce s) = false) :
    exec .final s = .next (respond (.digest (digestOf (padOnce s).hash)) (padOnce s)) := by
  simp [exec, execFinal, finalize, answerFinal, h]

theorem exec_final_broken {s : State} (h : padInvariantBroken (padOnce s) = true) :
    exec .final s = .next (raiseError .padInvariant (padOnce s)) := by
  simp [exec, execFinal, finalize, answerFinal, h]

/-! ## The step -/

theorem decode_nil : decode [] = .incomplete := rfl

theorem decode_singleton (b : Byte) : decode [b] = .incomplete := rfl

theorem decode_cons_cons (b0 b1 : Byte) (rest : List Byte) :
    decode (b0 :: b1 :: rest) = decodeHeader (headerOfBytes b0 b1) rest := rfl

theorem step_incomplete {s : State} (h : decode s.cmdIn = .incomplete) : step s = .next s := by
  simp [step, fetch, h]

theorem step_illegal {s : State} {hdr : Header} {rest : List Byte} (h : decode s.cmdIn = .illegal hdr rest) :
    step s = .next (raiseError .illegalCmd (consume rest s)) := by
  simp [step, fetch, h, execIllegal]

/-- Everything a step can do. -/
theorem step_cases {s t : State} (h : step s = .next t) :
    (decode s.cmdIn = .incomplete ∧ t = s) ∨
      (∃ hdr rest, decode s.cmdIn = .illegal hdr rest ∧ t = raiseError .illegalCmd (consume rest s)) ∨
      (∃ i rest, decode s.cmdIn = .command i rest ∧ exec i (consume rest s) = .next t) := by
  cases hd : decode s.cmdIn with
  | incomplete => rw [step_incomplete hd] at h; cases h; exact .inl ⟨rfl, rfl⟩
  | illegal hdr rest => rw [step_illegal hd] at h; cases h; exact .inr (.inl ⟨hdr, rest, rfl, rfl⟩)
  | command i rest =>
    refine .inr (.inr ⟨i, rest, rfl, ?_⟩)
    rw [← h]
    simp [step, fetch, hd]

end Sys2Proof.Machine
end

