-- ==== Sys2Proof/Laws/PerInstr.lean ====
section
/-! SUPPORT. Statements about every command as syntax, made per command. -/

namespace Sys2Proof.Laws.TableRow

/-- The header of a well-formed command selects its own row of the opcode table: `(hdr AND mask) = match`
(spec/30_encoding.md R63). -/
def Statement (i : Instr) : Prop := i.wf = true → (rowOf i).selects (encodeHeader i) = true

theorem init : Statement .init := by
  intro _
  decide

theorem update (data : List Byte) : Statement (.update data) := by
  intro _
  have top : ∀ len : BitVec 14, ((0b10#2 ++ len : Header) &&& 0xC000#16) = 0x8000#16 := by
    intro len
    apply BitVec.eq_of_getLsbD_eq
    intro k hk
    rw [BitVec.getLsbD_and, BitVec.getLsbD_append]
    interval_cases k <;> simp
  simp [rowOf, encodeHeader, mkHeader, OpRow.selects, top]

theorem final : Statement .final := by
  intro _
  decide

end Sys2Proof.Laws.TableRow
end

