-- ==== Sys2Proof/Tests/Slice0.lean ====
section
/-! SUPPORT. The model's own tests. Every expected value is written in spec/ (the place is named at each test), and a witness
stands for every statement that has hypotheses. -/

namespace Sys2Proof.Tests

open Sys2Proof Sys2Proof.Machine

/-! ## Helpers -/

/-- An ACTIVE engine with the reset contents and a given bit count. -/
def activeAt (bits : Nat) : State := { State.reset with bitlen := BitVec.ofNat 64 bits }

/-- A FINALIZED engine with the reset contents and a given bit count. -/
def finalizedAt (bits : Nat) : State := { activeAt bits with done := true }

/-- The next state of an outcome. -/
def nextOf : Host.Outcome State Fault Refusal → State
  | .next s => s
  | .fault _ => State.reset
  | .refused _ => State.reset

/-- The state after `UPDATE "abc"` from reset (95_test_vectors.md 1.2). -/
def afterAbc : State := { activeAt 24 with buf := writeWord (Vector.replicate 16 0) 0 0x61626300 }

/-- The buffer of 95_test_vectors.md 2.3, vector A6, after its 61 bytes 00, 01, .., 3c. -/
def bufferA6 : Vector Word 16 :=
  writeWord (Vector.ofFn fun i => 0x00010203 + BitVec.ofNat 32 i.val * 0x04040404) 15 0x3c000000

/-- The block of "abc" (95_test_vectors.md 1.2). -/
def blockAbc : Vector Word 16 := writeWord (writeWord (Vector.replicate 16 0) 0 0x61626380) 15 0x18

/-- Scratch that an earlier operation left behind. -/
def staleScratch : Vector Word 64 := Vector.replicate 64 0xdeadbeef

/-! ## Well-formedness -/

theorem test_wf_refuses_a_payload_over_maxchunk :
    (Instr.update (List.replicate 16384 0)).wf = false ∧ (Instr.update (List.replicate 16383 0)).wf = true := by
  constructor <;> simp only [Instr.wf, Config.maxChunk, List.length_replicate] <;> decide

theorem test_wf_accepts_the_commands_without_payload : Instr.init.wf = true ∧ Instr.final.wf = true := by decide

/-! ## Decoding: 95_test_vectors.md 2.5, words from 30_encoding.md R63 -/

theorem test_decode_init : decode [0b01000000, 0b00000000] = .command .init [] := by decide

theorem test_decode_update :
    decode [0b10000000, 0b00000011, 0x61, 0x62, 0x63] = .command (.update [0x61, 0x62, 0x63]) [] ∧
    decode [0b10000000, 0b00000000] = .command (.update []) [] := by decide

theorem test_decode_final : decode [0b11000000, 0b00000000] = .command .final [] := by decide

theorem test_decode_incomplete :
    decode [0x80, 0x03, 0x61, 0x62] = .incomplete ∧ decode [0x80] = .incomplete ∧ decode [] = .incomplete := by decide

theorem test_decode_illegal :
    decode [0x00, 0x00] = .illegal 0x0000 [] ∧ decode [0x3F, 0xFF] = .illegal 0x3FFF [] ∧
    decode [0x40, 0x01] = .illegal 0x4001 [] ∧ decode [0x7F, 0xFF] = .illegal 0x7FFF [] ∧
    decode [0xC0, 0x01] = .illegal 0xC001 [] ∧ decode [0xFF, 0xFF] = .illegal 0xFFFF [] ∧
    decode [0xC1, 0x00, 0xAA] = .illegal 0xC100 [0xAA] := by decide

theorem test_encode :
    encode .init = [0x40, 0x00] ∧ encode .final = [0xC0, 0x00] ∧
    encode (.update [0x61, 0x62, 0x63]) = [0x80, 0x03, 0x61, 0x62, 0x63] ∧
    (encode (.update (List.replicate 64 0))).take 2 = [0x80, 0x40] := by decide

/-- The longest payload of a table word, so that the layout can be evaluated for every header. -/
theorem test_table_word_of_the_longest_update :
    (tableBytes 16 0xBFFF).length = 16385 ∧ (decodeTableWord 16 0xBFFF).isSome = true := by decide +kernel

theorem test_withFetchWord_runs_the_word :
    (nextOf (step (State.reset.withFetchWord 16 0x4000))).respOut = [0x00] ∧
    (nextOf (step (State.reset.withFetchWord 16 0x8003))).bitlen = 24 ∧
    (nextOf (step (State.reset.withFetchWord 16 0xC000))).done = true := by decide +kernel

/-! ## Internal operations: 95_test_vectors.md 2.1, 2.2, 2.4 -/

theorem test_primitives :
    rotr 0x12345678 7 = 0xf02468ac ∧ shr 0x12345678 10 = 0x00048d15 ∧ add32 0x12345678 0xedcba988 = 0 ∧
    ch 0xf0f0f0f0 0xcccccccc 0xaaaaaaaa = 0xcacacaca ∧ maj 0xf0f0f0f0 0xcccccccc 0xaaaaaaaa = 0xe8e8e8e8 := by decide

theorem test_sigmas :
    bsig0 0x6a09e667 = 0xce20b47e ∧ bsig1 0x6a09e667 = 0x55b65510 ∧ ssig0 0x6a09e667 = 0xba0cf582 ∧
    ssig1 0x6a09e667 = 0xcfe5da3c ∧ ssig0 0xffffffff = 0x1fffffff ∧ ssig1 0xffffffff = 0x003fffff := by decide

theorem test_schedule_over_stale_scratch :
    readWord (schedule staleScratch blockAbc) 17 = 0x000f0000 ∧
    readWord (schedule staleScratch blockAbc) 63 = 0x12b1edeb := by decide +kernel

theorem test_round_zero :
    roundStep (schedule staleScratch blockAbc) (seedVars Config.IV) 0 =
      ⟨0x5d6aebcd, 0x6a09e667, 0xbb67ae85, 0x3c6ef372, 0xfa2a4622, 0x510e527f, 0x9b05688c, 0x1f83d9ab⟩ := by
  decide +kernel

/-- Vector (b): the all-ones block. -/
theorem test_compress_all_ones :
    (compress { State.reset with buf := Vector.replicate 16 0xffffffff, sched := staleScratch }).hash.toList =
      [0xef0c748d, 0xf4da50a8, 0xd6c43c01, 0x3edc3ce7, 0x6c9d9fa9, 0xa1458ade, 0x56eb86c0, 0xa64492d2] := by
  decide +kernel

theorem test_padBytes :
    zeroCount 24 = 52 ∧ zeroCount 440 = 0 ∧ zeroCount 448 = 63 ∧ zeroCount 504 = 56 ∧
    padBytes 440 = [0x80, 0x00, 0x00, 0x00, 0x00, 0x00, 0x00, 0x01, 0xb8] ∧
    (padBytes 4294967296).drop 56 = [0x00, 0x00, 0x00, 0x01, 0x00, 0x00, 0x00, 0x00] := by decide

theorem test_responses :
    encodeResponse .ok = [0x00] ∧ encodeResponse (.err .illegalCmd) = [0x81] ∧
    encodeResponse (.err .padInvariant) = [0x84] ∧
    decodeResponse [0x82, 0x00] = some (.err .updateAfterFinal, [0x00]) ∧ decodeResponse [0x02] = none := by decide

/-! ## The commands -/

/-- 44_host_commands.md R160, example. -/
theorem test_init :
    exec .init { afterAbc with done := true, sched := staleScratch } =
      .next { State.reset with sched := staleScratch, respOut := [0x00] } := by rfl

/-- Vector A4: a head, body quartets and a tail in one call. -/
theorem test_update_head_body_tail :
    (nextOf (exec (.update [0x02, 0x03, 0x04, 0x05, 0x06, 0x07, 0x08, 0x09, 0x0a, 0x0b])
      { activeAt 8 with buf := writeWord (Vector.replicate 16 0xaaaaaaaa) 0 0x01000000 })).buf.toList =
      [0x01020304, 0x05060708, 0x090a0b00] ++ List.replicate 13 0xaaaaaaaa := by decide +kernel

/-- Vector A6: the head completes `BUF[15]` and triggers COMPRESS. -/
theorem test_update_head_completes_the_block :
    let t := nextOf (exec (.update [0x3d, 0x3e, 0x3f]) { activeAt 488 with buf := bufferA6 })
    t.hash.toList =
      [0xfc99a2df, 0x88f42a7a, 0x7bb9d180, 0x33cdc6a2, 0x0256755f, 0x9d5b9a50, 0x44a9cc31, 0x5abe84a7] ∧
    readWord t.buf 0 = 0 ∧ readWord t.buf 15 = 0x3c3d3e3f ∧ t.bitlen = 512 := by decide +kernel

/-- Section 1.2: the digest of "abc", as the one hexadecimal number it is printed as, after its status byte 01. -/
theorem test_final_abc :
    (nextOf (exec .final afterAbc)).respOut.length = 33 ∧
    (nextOf (exec .final afterAbc)).respOut.foldl (fun n b => 256 * n + b.toNat) 0 =
      0x01ba7816bf8f01cfea414140de5dae2223b00361a396177a9cb410ff61f20015ad := by decide +kernel

/-- Section 2.4, the last rows: the counter wraps in the padding. -/
theorem test_final_wraps_the_counter :
    (nextOf (exec .final (activeAt (2 ^ 64 - 8)))).bitlen = 512 ∧
    (nextOf (exec .final (activeAt (2 ^ 64 - 72)))).bitlen = 0 := by decide +kernel

/-- Section 2.5, rows E5 to E11. -/
theorem test_errors :
    exec (.update [0x01, 0x02]) (activeAt (2 ^ 64 - 16)) = .next { activeAt (2 ^ 64 - 16) with respOut := [0x83] } ∧
    exec (.update [0x02]) (activeAt (2 ^ 64 - 8)) = .next { activeAt (2 ^ 64 - 8) with respOut := [0x83] } ∧
    exec (.update []) (activeAt (2 ^ 64 - 8)) = .next { activeAt (2 ^ 64 - 8) with respOut := [0x00] } ∧
    exec (.update [0x02]) (finalizedAt (2 ^ 64 - 8)) = .next { finalizedAt (2 ^ 64 - 8) with respOut := [0x82] } ∧
    exec .final (finalizedAt 24) = .next { finalizedAt 24 with respOut := [0x84] } ∧
    step { activeAt 8 with cmdIn := [0x00, 0x00] } = .next { activeAt 8 with respOut := [0x81] } :=
  ⟨rfl, rfl, rfl, rfl, rfl, rfl⟩

/-- Section 2.5, row E6: the head XORs `01` into lane 2 of `BUF[15]`, and the call returns at step 5. -/
theorem test_update_short_head_at_the_top_of_the_counter :
    let t := nextOf (exec (.update [0x01])
      { activeAt (2 ^ 64 - 16) with buf := writeWord (Vector.replicate 16 0) 15 0xabcd0000 })
    readWord t.buf 15 = 0xabcd0100 ∧ t.bitlen = BitVec.ofNat 64 (2 ^ 64 - 8) := by decide +kernel

/-- 96_more_programs.md P6: the engine waits inside a command. -/
theorem test_step_waits :
    step { activeAt 40 with cmdIn := [0x80, 0x03, 0x06, 0x07] } =
      .next { activeAt 40 with cmdIn := [0x80, 0x03, 0x06, 0x07] } := by rfl

/-! ## The reference and the assembler: 95_test_vectors.md 2.4, 30_encoding.md R71 -/

theorem test_sha256_of_one_byte :
    (sha256 [0x61]).toList.take 8 = [0xca, 0x97, 0x81, 0x12, 0xca, 0x1b, 0xbd, 0xca] := by decide +kernel

theorem test_assembler :
    (readLine ['U', 'P', 'D', 'A', 'T', 'E', ' ', quoteMark, 'a', 'b', 'c', quoteMark, ' ', ';', 'x']).map assemble =
      some [0x80, 0x03, 0x61, 0x62, 0x63] ∧
    (readLine ['U', 'P', 'D', 'A', 'T', 'E', ' ', '6', '1', ' ', 'f', 'F', '*', '2']).map assemble =
      some [0x80, 0x03, 0x61, 0xff, 0xff] ∧
    (readLine ['R', 'E', 'F', 'I', 'N', 'A', 'L']).map assemble = some [0xC0, 0x00] ∧
    readLine ['i', 'n', 'i', 't'] = none := by decide +kernel

theorem test_host_index_advances :
    (HostRun.issue [.init, .final] ⟨0, State.reset⟩).next = 1 ∧
    (HostRun.issue [.init, .final] ⟨0, State.reset⟩).engine.respOut = [0x00] := by decide +kernel

theorem test_quiet_sees_an_error :
    responsesOf 2 [0x00, 0x81] = [.ok, .err .illegalCmd] := by decide

/-! ## Witnesses: a concrete case of the hypotheses of each statement, at the ends of their ranges -/

theorem witness_RotateMovesEveryBit :
    (1 ≤ 1 ∧ 1 ≤ 31) ∧ (1 ≤ 31 ∧ 31 ≤ 31) ∧ (rotr 1 1).getLsbD 31 = true ∧ (rotr 0x80000000 31).getLsbD 0 = true := by
  decide

theorem witness_bit_positions :
    (ch 0x80000000 0x80000000 0).getLsbD 31 = true ∧ (maj 1 1 0).getLsbD 0 = true ∧
    (ssig0 0x80000000).getLsbD 28 = true ∧ (ssig1 0x80000000).getLsbD 21 = true := by decide

theorem witness_BufferPrimitivesWriteOnePlace :
    bufByte (bufXorByte 15 3 0xff State.reset).buf 63 = 0xff ∧ bufByte (bufXorByte 0 0 0xff State.reset).buf 0 = 0xff ∧
    readWord (bufSetWord 15 7 State.reset).buf 15 = 7 := by decide

theorem witness_CursorLanesZero : CursorLanesZero State.reset ∧ CursorLanesZero afterAbc := by decide

theorem witness_AbsorbCompressesOncePerCompletedBlock :
    blockPosition afterAbc + ([] : List Byte).length < 64 ∧
    blockPosition (activeAt 0) + (List.replicate 63 (0 : Byte)).length < 64 := by decide

theorem witness_UpdateInsideABlockWritesTheChunkAndZeroesItsLastWord :
    afterAbc.done = false ∧ afterAbc.bitlen.toNat + 8 * [(0x80 : Byte), 0x81].length < 2 ^ 64 ∧
    afterAbc.bitlen.toNat % 8 = 0 ∧ CursorLanesZero afterAbc ∧
    blockPosition afterAbc + [(0x80 : Byte), 0x81].length < 64 ∧
    (nextOf (exec (.update [0x80, 0x81]) afterAbc)).buf.toList.take 2 = [0x61626380, 0x81000000] := by decide +kernel

/-- The two clauses of the zero count at the values where they meet, and the length table at its four ends. -/
theorem witness_ZeroCountIsExact :
    lenAfterMarker 440 = 448 ∧ lenAfterMarker 448 = 456 ∧ (440 : BitLength).toNat % 8 = 0 ∧
    (448 : BitLength).toNat % 8 = 0 := by decide

theorem witness_PaddingEndsOnABlockBoundary :
    (padBytes 0).length = 64 ∧ (padBytes 440).length = 9 ∧ (padBytes 448).length = 72 ∧ (padBytes 504).length = 65 := by
  decide

theorem witness_LengthFieldEndsTheLastBlock :
    (activeAt (2 ^ 32)).done = false ∧ (activeAt (2 ^ 32)).bitlen.toNat % 8 = 0 ∧
    readWord (nextOf (exec .final (activeAt (2 ^ 32)))).buf 14 = 1 ∧
    readWord (nextOf (exec .final (activeAt (2 ^ 32)))).buf 15 = 0 := by decide +kernel

theorem witness_DigestSerializesTheHash : (digestOf Config.IV).toList[4 * 7 + 3]? = some 0x19 := by decide +kernel

theorem witness_UpdateChecksThenAbsorbs :
    (finalizedAt 512).done = true ∧
    ((activeAt (2 ^ 64 - 8)).done = false ∧ 2 ^ 64 ≤ (activeAt (2 ^ 64 - 8)).bitlen.toNat + 8 * 1) ∧
    ((activeAt (2 ^ 64 - 16)).done = false ∧ (activeAt (2 ^ 64 - 16)).bitlen.toNat + 8 * 1 < 2 ^ 64) := by decide

theorem witness_FinalAlwaysAnswersADigest :
    (ByteAligned afterAbc ∧ FinalizedIsWholeBlocks afterAbc) ∧
    (ByteAligned (finalizedAt 512) ∧ FinalizedIsWholeBlocks (finalizedAt 512)) := by decide

theorem witness_SecondFinalRepeatsTheDigest :
    ∃ (s t : State) (d : Digest), exec .final s = .next t ∧ t.respOut = s.respOut ++ 0x01 :: d.toList :=
  ⟨finalizedAt 512, { finalizedAt 512 with respOut := 0x01 :: (digestOf Config.IV).toList }, digestOf Config.IV, rfl, rfl⟩

theorem witness_RejectedUpdateDiscardsItsPayload :
    ([(0x64 : Byte)].length ≤ 16383 ∧ [0x80, 0x01, 0x64, 0xC0] = encode (.update [0x64]) ++ [0xC0]) ∧
    (finalizedAt 512).done = true ∧ (finalizedAt 512).bitlen.toNat % 512 = 0 ∧
    (activeAt (2 ^ 64 - 8)).done = false ∧
    2 ^ 64 ≤ (activeAt (2 ^ 64 - 8)).bitlen.toNat + 8 * [(0x64 : Byte)].length := by decide

theorem witness_PadErrorLeavesADeadEngine :
    ∃ s t : State, exec .final s = .next t ∧ t.respOut = s.respOut ++ [0x84] :=
  ⟨finalizedAt 24, { finalizedAt 24 with respOut := [0x84] }, rfl, rfl⟩

theorem witness_illegal_headers :
    (∀ h ∈ [0x0000, 0x3FFF, 0x4001, 0x7FFF, 0xC001, 0xFFFF],
      h < 0x4000 ∨ (0x4000 < h ∧ h < 0x8000) ∨ 0xC000 < h) ∧
    256 * (0xC0 : Byte).toNat + (0x01 : Byte).toNat = 0xC001 := by decide

theorem witness_ErrorsArePrecise :
    (∃ s t : State, step s = .next t ∧ t.respOut = s.respOut ++ encodeResponse (.err .illegalCmd)) ∧
    (∃ s t : State, step s = .next t ∧ t.respOut = s.respOut ++ encodeResponse (.err .padInvariant)) :=
  ⟨⟨{ State.reset with cmdIn := [0xFF, 0xFF] }, { State.reset with respOut := [0x81] }, rfl, rfl⟩,
   ⟨{ finalizedAt 24 with cmdIn := [0xC0, 0x00] }, { finalizedAt 24 with respOut := [0x84] }, rfl, rfl⟩⟩

/-- The UPDATE headers at both ends of their range. -/
theorem witness_DecodingFollowsTheHeader :
    decode [0x80, 0x00] = .command (.update []) [] ∧ decode [0xBF, 0xFF] = .incomplete := by decide

theorem witness_StepRunsTheDecodedCommand :
    decode (encode .final ++ [0x40]) = .command .final [0x40] ∧ Instr.final.wf = true := by decide

theorem witness_LaterBytesDoNotDisturbACommand :
    ∃ s t : State, decode s.cmdIn ≠ .incomplete ∧ step s = .next t :=
  ⟨{ State.reset with cmdIn := [0x40, 0x00] }, { State.reset with respOut := [0x00] }, by decide, rfl⟩

theorem witness_DoneIsSetByFinalAndClearedByInit :
    (∃ s t : State, step s = .next t ∧ s.done = true ∧ t.done = false) ∧
    (∃ s t : State, step s = .next t ∧ s.done = false ∧ t.done = true) := by
  refine ⟨⟨{ finalizedAt 512 with cmdIn := [0x40, 0x00] }, { State.reset with respOut := [0x00] }, rfl, rfl, rfl⟩, ?_⟩
  refine ⟨{ activeAt 0 with cmdIn := [0xC0, 0x00] }, answerFinal (finalize (activeAt 0)), rfl, rfl, ?_⟩
  decide +kernel

theorem witness_Inv : Inv State.reset ∧ Inv afterAbc ∧ Inv (finalizedAt 512) :=
  ⟨⟨by decide, by decide, by decide⟩, ⟨by decide, by decide, by decide⟩, ⟨by decide, by decide, by decide⟩⟩

theorem witness_ReachableStatesHoldAMessage : Reachable State.reset := .reset

/-- Two engines with different scratch and a different word above the cursor. -/
theorem witness_StaleStorageIsUnobservable :
    SameToHost State.reset
      { State.reset with buf := writeWord (Vector.replicate 16 0) 1 7, sched := staleScratch, freeCount := 5 } where
  hash := rfl
  buf := by decide
  bitlen := rfl
  done := rfl
  cmdIn := rfl
  respOut := rfl

theorem witness_UpdateIsChunkInvariant :
    afterAbc.done = false ∧ CursorLanesZero afterAbc ∧
    afterAbc.bitlen.toNat + 8 * ([(0x64 : Byte)].length + [(0x65 : Byte)].length) < 2 ^ 64 := by decide

theorem witness_Represents : State.reset.done = false ∧ Represents State.reset [] ∧
    State.reset.bitlen.toNat + 8 * [(0x61 : Byte)].length < 2 ^ 64 ∧ 8 * ([] : List Byte).length < 2 ^ 64 :=
  ⟨rfl, ⟨rfl, by decide +kernel, rfl⟩, by decide, by decide⟩

theorem witness_StreamOfChunksHashesTheirConcatenation :
    (∀ i < 16, readWord State.reset.buf i = 0) ∧ (∀ c ∈ [[(0x61 : Byte)], []], c.length ≤ 16383) ∧
    8 * [[(0x61 : Byte)], []].flatten.length < 2 ^ 64 ∧
    [0x80, 0x01, 0x61, 0x80, 0x00, 0xC0, 0x00] =
      [[(0x61 : Byte)], []].flatMap (fun c => encode (.update c)) ++ encode .final := by decide

end Sys2Proof.Tests
end

