-- ==== Sys2Proof/Proofs/DoneFlag.lean ====
section
/-! PROOF. Which commands write `DONE` (spec/10_state.md R27). -/

namespace Sys2Proof.Machine

/-! ## What each command does to `DONE` -/

theorem exec_init_done {s t : State} (h : exec .init s = .next t) : t.done = false := by
  rw [exec_init] at h
  cases h
  simp

theorem exec_update_done {s t : State} {data : List Byte} (h : exec (.update data) s = .next t) : t.done = s.done := by
  cases hd : s.done with
  | true =>
    rw [exec_update_finalized hd] at h
    cases h
    simp [hd]
  | false =>
    cases ho : lengthOverflows s data.length with
    | true =>
      rw [exec_update_overflow hd ho] at h
      cases h
      simp [hd]
    | false =>
      rw [exec_update_accepted hd ho] at h
      cases h
      simp [hd]

/-- FINAL leaves `DONE` 1 whether it answers a digest or the padding error. -/
theorem exec_final_done {s t : State} (h : exec .final s = .next t) : t.done = true := by
  cases hb : padInvariantBroken (padOnce s) with
  | true =>
    rw [exec_final_broken hb] at h
    cases h
    simp
  | false =>
    rw [exec_final_digest hb] at h
    cases h
    simp

/-! ## What a step does to `DONE` -/

/-- A step keeps `DONE`, or ran INIT and left it 0, or ran FINAL and left it 1. -/
theorem step_done_cases {s t : State} (h : step s = .next t) :
    t.done = s.done ∨
      (∃ rest, decode s.cmdIn = .command .init rest ∧ t.done = false) ∨
      (∃ rest, decode s.cmdIn = .command .final rest ∧ t.done = true) := by
  obtain ⟨-, rfl⟩ | ⟨hdr, rest, -, rfl⟩ | ⟨i, rest, hdec, hexec⟩ := step_cases h
  · exact .inl rfl
  · exact .inl (by simp)
  · cases i with
    | init => exact .inr (.inl ⟨rest, hdec, exec_init_done hexec⟩)
    | update data => exact .inl ((exec_update_done hexec).trans (consume_done rest s))
    | final => exact .inr (.inr ⟨rest, hdec, exec_final_done hexec⟩)

/-- Settles O38, from the three things a step can do to `DONE`. -/
theorem doneIsSetByFinalAndClearedByInit : Obligations.DoneIsSetByFinalAndClearedByInit := by
  refine ⟨rfl, fun s t h => exec_final_done h, fun s t h => ?_⟩
  obtain hkept | ⟨rest, hdec, hclear⟩ | ⟨rest, hdec, hset⟩ := step_done_cases h
  · constructor <;> intro hs ht <;> simp [hkept, hs] at ht
  · exact ⟨fun _ ht => by simp [hclear] at ht, fun _ _ => ⟨rest, hdec⟩⟩
  · exact ⟨fun _ _ => ⟨rest, hdec⟩, fun _ ht => by simp [hset] at ht⟩

end Sys2Proof.Machine
end

