-- ==== Sys2Proof/Proofs/BigEndian.lean ====
section
/-! PROOF. The byte view of the buffer is big-endian (spec/20_memory.md R41; spec/00_scope.md R12). -/

namespace Sys2Proof.Machine

/-! ## Lanes of a word -/

/-- R41: lane `l` is bits `31 - 8l` down to `24 - 8l`. -/
theorem lane_eq_extractLsb' (v : Word) {l : Nat} (h : l < 4) : lane v l = v.extractLsb' (24 - 8 * l) 8 := by
  have hshift : 8 * (3 - l) = 24 - 8 * l := by omega
  rw [lane, hshift, BitVec.extractLsb']
  rfl

/-- The byte view of the buffer, read off one word: the rule to use where the position is given as word and lane. -/
theorem bufByte_word_lane (buf : Vector Word 16) (i : Nat) {l : Nat} (h : l < 4) :
    bufByte buf (4 * i + l) = lane (readWord buf i) l := by
  have hword : (4 * i + l) / 4 = i := by omega
  have hlane : (4 * i + l) % 4 = l := by omega
  rw [bufByte, hword, hlane]

/-! ## The word of four bytes -/

/-- R12: `word_be` lays its four bytes one after the other, the first on top. Both sides are compared bit by bit: the
shifts of the left side clear every bit outside the byte's own range. -/
theorem wordBE_eq_append (b0 b1 b2 b3 : Byte) : wordBE b0 b1 b2 b3 = b0 ++ b1 ++ b2 ++ b3 := by
  apply BitVec.eq_of_getLsbD_eq
  intro i hi
  simp only [wordBE, BitVec.getLsbD_append, BitVec.getLsbD_or, BitVec.getLsbD_shiftLeft, BitVec.getLsbD_setWidth]
  grind

/-- A word is `word_be` of its own lanes: neighbouring lanes are neighbouring bit ranges. -/
theorem wordBE_lanes (v : Word) : wordBE (lane v 0) (lane v 1) (lane v 2) (lane v 3) = v := by
  have hjoin {start len : Nat} :
      v.extractLsb' (start + 8) len ++ v.extractLsb' start 8 = v.extractLsb' start (len + 8) :=
    BitVec.extractLsb'_append_extractLsb'_eq_extractLsb' rfl
  calc wordBE (lane v 0) (lane v 1) (lane v 2) (lane v 3)
      = v.extractLsb' 24 8 ++ v.extractLsb' 16 8 ++ v.extractLsb' 8 8 ++ v.extractLsb' 0 8 := by
        simp only [wordBE_eq_append, lane_eq_extractLsb', Nat.reduceLT]
    _ = v.extractLsb' 0 32 := by rw [hjoin (start := 16), hjoin (start := 8), hjoin (start := 0)]
    _ = v := BitVec.extractLsb'_eq_self

/-! ## The word of four bytes as a number -/

theorem toNat_append_eq_mul_add {m n : Nat} (x : BitVec m) (y : BitVec n) :
    (x ++ y).toNat = x.toNat * 2 ^ n + y.toNat := by
  rw [BitVec.toNat_append, ← Nat.shiftLeft_add_eq_or_of_lt y.isLt, Nat.shiftLeft_eq]

theorem toNat_wordBE (b0 b1 b2 b3 : Byte) :
    (wordBE b0 b1 b2 b3).toNat = b0.toNat * 2 ^ 24 + b1.toNat * 2 ^ 16 + b2.toNat * 2 ^ 8 + b3.toNat := by
  rw [wordBE_eq_append]
  simp only [toNat_append_eq_mul_add]
  omega

/-- Settles O1: position `p` is a lane, a word is `word_be` of its own lanes, and `word_be` has its value as a number. -/
theorem bufferIsBigEndian : Obligations.BufferIsBigEndian := by
  refine ⟨fun buf p => lane_eq_extractLsb' _ (Nat.mod_lt p (by decide)), fun buf i => ?_, toNat_wordBE⟩
  have hfirst : bufByte buf (4 * i) = lane (readWord buf i) 0 := bufByte_word_lane buf i (l := 0) (by decide)
  simp only [hfirst, bufByte_word_lane, Nat.reduceLT, wordBE_lanes]

end Sys2Proof.Machine
end

