-- ==== Sys2Proof/Proofs/OpcodeRows.lean ====
section
/-! PROOF. The rows of the opcode table against the decoder (spec/30_encoding.md R63, R66, R67). -/

namespace Sys2Proof.Machine

/-! ## The header fields as numbers -/

theorem toNat_opField (hdr : Header) : (opField hdr).toNat = hdr.toNat / 2 ^ 14 := by
  rw [opField, BitVec.extractLsb'_toNat, Nat.shiftRight_eq_div_pow]
  exact Nat.mod_eq_of_lt (by omega)

theorem lenField_eq_mod (hdr : Header) : lenField hdr = hdr.toNat % 2 ^ 14 := by
  rw [lenField, BitVec.extractLsb'_toNat, Nat.shiftRight_zero]

/-- A header is its two fields: `LEN` below bit 14 and `OP` above it (R61). -/
theorem header_eq_iff (hdr value : Header) :
    hdr = value ↔ opField hdr = opField value ∧ lenField hdr = lenField value := by
  refine ⟨fun h => by simp [h], fun ⟨hop, hlen⟩ => ?_⟩
  have hop' := congrArg BitVec.toNat hop
  rw [toNat_opField, toNat_opField] at hop'
  rw [lenField_eq_mod, lenField_eq_mod] at hlen
  apply BitVec.eq_of_toNat_eq
  omega

/-! ## What each row selects -/

theorem selects_iff (r : OpRow) (hdr : Header) : r.selects hdr = true ↔ hdr &&& r.mask = r.value := by
  rw [OpRow.selects, beq_iff_eq]

/-- A row whose mask is all ones is selected by its own value only. -/
theorem selects_iff_eq_value {r : OpRow} (hmask : r.mask = 0xFFFF) (hdr : Header) :
    r.selects hdr = true ↔ hdr = r.value := by
  have hall : hdr &&& 0xFFFF = hdr := BitVec.and_allOnes
  rw [selects_iff, hmask, hall]

/-- The mask of UPDATE's row keeps the field OP and clears the field LEN. -/
theorem and_opMask (hdr : Header) : hdr &&& 0xC000 = opField hdr ++ 0#14 := by
  apply BitVec.eq_of_getLsbD_eq
  intro k hk
  rw [BitVec.getLsbD_and, BitVec.getLsbD_append, opField, BitVec.getLsbD_extractLsb']
  interval_cases k <;> simp

theorem init_selects_iff (hdr : Header) :
    (rowOf .init).selects hdr = true ↔ opField hdr = 0b01#2 ∧ lenField hdr = 0 :=
  (selects_iff_eq_value rfl hdr).trans (header_eq_iff hdr 0x4000)

theorem final_selects_iff (hdr : Header) :
    (rowOf .final).selects hdr = true ↔ opField hdr = 0b11#2 ∧ lenField hdr = 0 :=
  (selects_iff_eq_value rfl hdr).trans (header_eq_iff hdr 0xC000)

theorem update_selects_iff (data : List Byte) (hdr : Header) :
    (rowOf (.update data)).selects hdr = true ↔ opField hdr = 0b10#2 := by
  have hmasked : (rowOf (.update data)).selects hdr = true ↔ opField hdr ++ 0#14 = 0b10#2 ++ 0#14 := by
    rw [selects_iff, ← and_opMask]
    rfl
  rw [hmasked, BitVec.append_left_inj]

/-! ## The decoder, row by row -/

theorem opRows_eq_rowOf : opRows = [rowOf .init, rowOf (.update []), rowOf .final] := rfl

theorem rowOf_mem_opRows (i : Instr) : rowOf i ∈ opRows := by
  cases i <;> simp [opRows, rowOf]

theorem not_forall_unselected {i : Instr} {hdr : Header} (h : (rowOf i).selects hdr = true) :
    ¬ ∀ r ∈ opRows, r.selects hdr = false := fun hnone => by simp [hnone _ (rowOf_mem_opRows i)] at h

/-- Everything a header can decode to: the command of the row it selects, an UPDATE that waits for its payload, or an
illegal command when it selects no row. -/
theorem decodeHeader_cases (hdr : Header) (rest : List Byte) :
    (∃ i rest', decodeHeader hdr rest = .command i rest' ∧ (rowOf i).selects hdr = true) ∨
      (decodeHeader hdr rest = .incomplete ∧ (rowOf (.update [])).selects hdr = true) ∨
      (decodeHeader hdr rest = .illegal hdr rest ∧ ∀ r ∈ opRows, r.selects hdr = false) := by
  unfold decodeHeader
  split_ifs with hinit hfinal hop hshort
  · exact .inl ⟨.init, rest, rfl, (init_selects_iff hdr).2 hinit⟩
  · exact .inl ⟨.final, rest, rfl, (final_selects_iff hdr).2 hfinal⟩
  · exact .inr (.inl ⟨rfl, (update_selects_iff [] hdr).2 hop⟩)
  · exact .inl ⟨.update _, _, rfl, (update_selects_iff _ hdr).2 hop⟩
  · refine .inr (.inr ⟨rfl, ?_⟩)
    simp only [opRows_eq_rowOf, List.forall_mem_cons, ← Bool.not_eq_true, init_selects_iff, update_selects_iff,
      final_selects_iff]
    exact ⟨hinit, hop, hfinal, by simp⟩

/-- R63: the rows differ in the field OP, so a header selects at most one of them. -/
theorem selected_rows_le_one (hdr : Header) : (opRows.filter fun r => r.selects hdr).length ≤ 1 := by
  simp only [opRows_eq_rowOf, List.filter_cons, List.filter_nil, init_selects_iff, update_selects_iff,
    final_selects_iff]
  by_cases hupdate : opField hdr = 0b10#2
  · simp [hupdate]
  · by_cases hinit : opField hdr = 0b01#2
    · by_cases hlen : lenField hdr = 0 <;> simp [hinit, hlen]
    · by_cases hfinal : opField hdr = 0b11#2 ∧ lenField hdr = 0 <;> simp [hupdate, hinit, hfinal]

/-- Settles O31, from what each row selects and the cases of the decoder. -/
theorem opcodeRowsPartitionTheHeaders : Obligations.OpcodeRowsPartitionTheHeaders := by
  intro hdr rest
  refine ⟨selected_rows_le_one hdr, fun i rest' hdec => ⟨rowOf_mem_opRows i, ?_⟩, ?_⟩
  · obtain ⟨j, _, hj, hsel⟩ | ⟨hinc, -⟩ | ⟨hill, -⟩ := decodeHeader_cases hdr rest
    · cases hdec.symm.trans hj
      exact hsel
    · cases hdec.symm.trans hinc
    · cases hdec.symm.trans hill
  · obtain ⟨j, _, hj, hsel⟩ | ⟨hinc, hsel⟩ | ⟨hill, hnone⟩ := decodeHeader_cases hdr rest
    · exact iff_of_false (by simp [hj]) (not_forall_unselected hsel)
    · exact iff_of_false (by simp [hinc]) (not_forall_unselected hsel)
    · exact iff_of_true hill hnone

end Sys2Proof.Machine
end

