-- ==== Sys2Proof/Proofs/PseudoInstructions.lean ====
section
/-! PROOF. The expansion of the pseudo-instructions (spec/30_encoding.md R72). -/

namespace Sys2Proof.Machine

theorem cutChunks_flatten (fuel : Nat) (data : List Byte) : (cutChunks fuel data).flatten = data := by
  induction fuel generalizing data with
  | zero => simp [cutChunks]
  | succ fuel ih =>
    rw [cutChunks]
    split
    · simp
    · rw [List.flatten_cons, ih, List.take_append_drop]

/-- With one cut for each chunk beyond the first, all chunks but the last are full, and the last is what is left over:
a cut is made only where more than `MAXCHUNK` bytes stand, so something is left after it. -/
theorem cutChunks_eq_full_append_last {fuel : Nat} {data : List Byte}
    (h : data.length ≤ Config.maxChunk * (fuel + 1)) :
    ∃ (full : List (List Byte)) (last : List Byte), cutChunks fuel data = full ++ [last] ∧
      (∀ c ∈ full, c.length = Config.maxChunk) ∧ last.length ≤ Config.maxChunk ∧ (last = [] → data = []) := by
  induction fuel generalizing data with
  | zero => exact ⟨[], data, by simp [cutChunks], by simp, by simpa using h, id⟩
  | succ fuel ih =>
    by_cases hshort : data.length ≤ Config.maxChunk
    · exact ⟨[], data, by simp [cutChunks, hshort], by simp, hshort, id⟩
    · have hrest : (data.drop Config.maxChunk).length ≤ Config.maxChunk * (fuel + 1) := by
        rw [Nat.mul_succ] at h
        rw [List.length_drop]
        omega
      obtain ⟨full, last, hcut, hfull, hlast, hempty⟩ := ih hrest
      have hhead : (data.take Config.maxChunk).length = Config.maxChunk := by
        rw [List.length_take]
        omega
      refine ⟨data.take Config.maxChunk :: full, last, ?_, ?_, hlast, fun hnil => ?_⟩
      · rw [cutChunks, if_neg hshort, hcut, List.cons_append]
      · exact List.forall_mem_cons.2 ⟨hhead, hfull⟩
      · exact absurd (List.drop_eq_nil_iff.1 (hempty hnil)) hshort

/-- R72: the number of cuts that `updateCommands` allows is enough. -/
theorem length_le_maxChunk_mul_cuts (data : List Byte) :
    data.length ≤ Config.maxChunk * (data.length / Config.maxChunk + 1) :=
  (Nat.lt_mul_div_succ data.length (by decide)).le

/-- Settles O34: the cut of the data by induction on the number of cuts, the other two lines by their definition. -/
theorem pseudoInstructionsExpand : Obligations.PseudoInstructionsExpand := by
  refine ⟨fun data => ?_, fun operands => rfl, rfl⟩
  obtain ⟨full, last, hcut, hfull, hlast, hempty⟩ := cutChunks_eq_full_append_last (length_le_maxChunk_mul_cuts data)
  exact ⟨full, last, by rw [updateCommands, hcut], by rw [← hcut, cutChunks_flatten], hfull, hlast, hempty⟩

end Sys2Proof.Machine
end

