-- ==== Sys2Proof/Proofs/BitwisePrimitives.lean ====
section
/-! PROOF. The bitwise primitives, bit by bit and as arithmetic (spec/40_bitwise_primitives.md). -/

namespace Sys2Proof.Machine

/-! ## Rotation and shift -/

/-- R80: the rule's OR of two shifts is the library's right rotation. -/
theorem rotr_eq_rotateRight (x : Word) {n : Nat} (hn : n < 32) : rotr x n = x.rotateRight n := by
  rw [rotr, BitVec.rotateRight_def, Nat.mod_eq_of_lt hn]

/-- R80, bit by bit: below `32 - n` the bit comes from the right shift, above it the index wraps round. -/
theorem getLsbD_rotr (x : Word) {n i : Nat} (hn : n < 32) (hi : i < 32) :
    (rotr x n).getLsbD i = x.getLsbD ((i + n) % 32) := by
  rw [rotr_eq_rotateRight x hn, BitVec.getLsbD_rotateRight, Nat.mod_eq_of_lt hn]
  by_cases hlow : i < 32 - n
  · have hsource : (i + n) % 32 = n + i := by omega
    simp [hlow, hsource]
  · have hsource : (i + n) % 32 = i - (32 - n) := by omega
    simp [hlow, hi, hsource]

theorem rotr_zero (n : Nat) : rotr 0 n = 0 := by
  simp [rotr]

theorem rotr_allOnes {n : Nat} (hn : n < 32) : rotr (BitVec.allOnes 32) n = BitVec.allOnes 32 := by
  refine BitVec.eq_of_getLsbD_eq fun i hi => ?_
  have hsource : (i + n) % 32 < 32 := Nat.mod_lt _ (by decide)
  rw [getLsbD_rotr _ hn hi, BitVec.getLsbD_allOnes, BitVec.getLsbD_allOnes, decide_eq_true hsource, decide_eq_true hi]

/-- R81, bit by bit: nothing comes in from past the top bit. -/
theorem getLsbD_shr (x : Word) (n i : Nat) :
    (shr x n).getLsbD i = if i + n < 32 then x.getLsbD (i + n) else false := by
  rw [shr, BitVec.getLsbD_ushiftRight, Nat.add_comm n i]
  split
  · rfl
  · exact BitVec.getLsbD_of_ge x (i + n) (by omega)

theorem toNat_shr (x : Word) (n : Nat) : (shr x n).toNat = x.toNat / 2 ^ n := by
  rw [shr, BitVec.toNat_ushiftRight, Nat.shiftRight_eq_div_pow]

/-- Settles O2: the bits by `getLsbD_rotr`, from which the all-one word follows too. -/
theorem rotateMovesEveryBit : Obligations.RotateMovesEveryBit := by
  intro x n _ hn
  have hn32 : n < 32 := by omega
  exact ⟨fun i hi => getLsbD_rotr x hn32 hi, rfl, rotr_zero n, rotr_allOnes hn32⟩

/-- Settles O3: `shr` and `add32` are the machine word's own shift and sum. -/
theorem shiftAndAdditionAreExact : Obligations.ShiftAndAdditionAreExact :=
  ⟨toNat_shr, fun x y => ⟨BitVec.toNat_add x y, BitVec.add_comm x y⟩, BitVec.add_assoc⟩

/-! ## Choice and majority -/

/-- R83: where `x` is 1 the second term of `ch` vanishes, where it is 0 the first. -/
theorem getLsbD_ch (x y z : Word) {i : Nat} (hi : i < 32) :
    (ch x y z).getLsbD i = if x.getLsbD i then y.getLsbD i else z.getLsbD i := by
  rw [ch, BitVec.getLsbD_xor, BitVec.getLsbD_and, BitVec.getLsbD_and, BitVec.getLsbD_not, decide_eq_true hi]
  cases x.getLsbD i <;> simp

/-- The exclusive-or of the three pairwise products of bits is their majority. -/
theorem xor_pairs_eq_two_le (a b c : Bool) :
    ((a && b) ^^ (a && c) ^^ (b && c)) = decide (2 ≤ a.toNat + b.toNat + c.toNat) := by
  revert a b c
  decide

theorem getLsbD_maj (x y z : Word) (i : Nat) :
    (maj x y z).getLsbD i = decide (2 ≤ (x.getLsbD i).toNat + (y.getLsbD i).toNat + (z.getLsbD i).toNat) := by
  rw [maj, ← xor_pairs_eq_two_le]
  simp only [BitVec.getLsbD_xor, BitVec.getLsbD_and]

/-- Settles O4, by the bit rules of `ch` and `maj`. -/
theorem choiceAndMajorityAreBitwise : Obligations.ChoiceAndMajorityAreBitwise :=
  fun x y z i hi => ⟨getLsbD_ch x y z hi, getLsbD_maj x y z i⟩

/-! ## The sigma functions -/

/-- R85, R86: a capital sigma with its three amounts. -/
theorem getLsbD_xor_rotr_rotr_rotr (x : Word) {k l m i : Nat} (hk : k < 32) (hl : l < 32) (hm : m < 32) (hi : i < 32) :
    (rotr x k ^^^ rotr x l ^^^ rotr x m).getLsbD i =
      (x.getLsbD ((i + k) % 32) ^^ x.getLsbD ((i + l) % 32) ^^ x.getLsbD ((i + m) % 32)) := by
  rw [BitVec.getLsbD_xor, BitVec.getLsbD_xor, getLsbD_rotr x hk hi, getLsbD_rotr x hl hi, getLsbD_rotr x hm hi]

/-- R87, R88: a lowercase sigma with its three amounts, the third that of a shift. -/
theorem getLsbD_xor_rotr_rotr_shr (x : Word) {k l i : Nat} (m : Nat) (hk : k < 32) (hl : l < 32) (hi : i < 32) :
    (rotr x k ^^^ rotr x l ^^^ shr x m).getLsbD i =
      (x.getLsbD ((i + k) % 32) ^^ x.getLsbD ((i + l) % 32) ^^ (if i + m < 32 then x.getLsbD (i + m) else false)) := by
  rw [BitVec.getLsbD_xor, BitVec.getLsbD_xor, getLsbD_rotr x hk hi, getLsbD_rotr x hl hi, getLsbD_shr]

/-- Settles O5: each sigma is one of the two shapes, at the amounts of its rule. -/
theorem sigmasMixThreeImages : Obligations.SigmasMixThreeImages := by
  intro x i hi
  refine ⟨?bsig0, ?bsig1, ?ssig0, ?ssig1⟩
  case bsig0 => exact getLsbD_xor_rotr_rotr_rotr x (by decide) (by decide) (by decide) hi
  case bsig1 => exact getLsbD_xor_rotr_rotr_rotr x (by decide) (by decide) (by decide) hi
  case ssig0 => exact getLsbD_xor_rotr_rotr_shr x 3 (by decide) (by decide) hi
  case ssig1 => exact getLsbD_xor_rotr_rotr_shr x 10 (by decide) (by decide) hi

end Sys2Proof.Machine
end

