-- ==== Sys2Proof/Proofs/CompressionCore.lean ====
section
/-! PROOF. The schedule, the rounds and what COMPRESS makes of them (spec/41_compression_core.md R100 to R103). -/

namespace Sys2Proof.Machine

/-! ## The schedule word by word -/

/-- R100 as a recurrence on the word's index: what the schedule of a block holds, with no scratch in sight. -/
def scheduleWord (block : Vector Word 16) (i : Nat) : Word :=
  if i < 16 then readWord block i
  else
    ssig1 (scheduleWord block (i - 2)) + scheduleWord block (i - 7) + ssig0 (scheduleWord block (i - 15)) +
      scheduleWord block (i - 16)
termination_by i

theorem scheduleWord_of_lt (block : Vector Word 16) {i : Nat} (hi : i < 16) :
    scheduleWord block i = readWord block i := by
  rw [scheduleWord, if_pos hi]

theorem scheduleWord_of_ge (block : Vector Word 16) {i : Nat} (hi : 16 ≤ i) :
    scheduleWord block i =
      ssig1 (scheduleWord block (i - 2)) + scheduleWord block (i - 7) + ssig0 (scheduleWord block (i - 15)) +
        scheduleWord block (i - 16) := by
  rw [scheduleWord, if_neg hi.not_gt]

/-- The invariant of SCHED: the words below `m` are written, whatever the words from `m` on still hold. -/
def FilledBelow (block : Vector Word 16) (W : Vector Word 64) (m : Nat) : Prop :=
  ∀ i < m, readWord W i = scheduleWord block i

theorem writeWord_fills {block : Vector Word 16} {W : Vector Word 64} {m : Nat} {x : Word} (hm : m < 64)
    (h : FilledBelow block W m) (hx : x = scheduleWord block m) : FilledBelow block (writeWord W m x) (m + 1) := by
  intro i hi
  obtain hlt | rfl := Nat.lt_succ_iff_lt_or_eq.1 hi
  · rw [readWord_writeWord_other W hlt.ne', h i hlt]
  · rw [readWord_writeWord_same W hm, hx]

theorem copyWord_fills {block : Vector Word 16} {W : Vector Word 64} {m : Nat} (hm : m < 16)
    (h : FilledBelow block W m) : FilledBelow block (copyWord block W m) (m + 1) :=
  writeWord_fills (by omega) h (scheduleWord_of_lt block hm).symm

/-- The four words that SCHED reads for word `m` lie below `m`, so they are written already. -/
theorem expandWord_fills {block : Vector Word 16} {W : Vector Word 64} {m : Nat} (hlow : 16 ≤ m) (hm : m < 64)
    (h : FilledBelow block W m) : FilledBelow block (expandWord W m) (m + 1) := by
  refine writeWord_fills hm h ?_
  rw [h (m - 2) (by omega), h (m - 7) (by omega), h (m - 15) (by omega), h (m - 16) (by omega),
    scheduleWord_of_ge block hlow]
  rfl

/-- A loop in ascending order fills its range when each of its steps fills one word more. -/
theorem foldl_range'_fills {block : Vector Word 16} {f : Vector Word 64 → Nat → Vector Word 64} {start n : Nat}
    {W : Vector Word 64}
    (hf : ∀ V m, start ≤ m → m < start + n → FilledBelow block V m → FilledBelow block (f V m) (m + 1))
    (h : FilledBelow block W start) : FilledBelow block ((List.range' start n).foldl f W) (start + n) := by
  induction n with
  | zero => exact h
  | succ n ih =>
    rw [List.range'_1_concat, List.foldl_concat]
    exact hf _ _ (by omega) (by omega) (ih fun V m hlow hm => hf V m hlow (by omega))

/-- R100: SCHED writes all 64 words, so none of its stale contents is left. -/
theorem schedule_filled (stale : Vector Word 64) (block : Vector Word 16) :
    FilledBelow block (schedule stale block) 64 := by
  have hnone : FilledBelow block stale 0 := by simp [FilledBelow]
  have hcopied : FilledBelow block ((List.range 16).foldl (copyWord block) stale) 16 := by
    rw [List.range_eq_range']
    exact foldl_range'_fills (fun _ _ _ hm => copyWord_fills (by omega)) hnone
  unfold schedule
  exact foldl_range'_fills (fun _ _ hlow hm => expandWord_fills hlow (by omega)) hcopied

theorem readWord_schedule (stale : Vector Word 64) (block : Vector Word 16) {i : Nat} (hi : i < 64) :
    readWord (schedule stale block) i = scheduleWord block i :=
  schedule_filled stale block i hi

/-- R100: no value is carried over from the stale contents. -/
theorem schedule_stale_irrelevant (stale stale' : Vector Word 64) (block : Vector Word 16) :
    schedule stale block = schedule stale' block :=
  eq_of_readWord_eq fun i hi => by rw [readWord_schedule _ _ hi, readWord_schedule _ _ hi]

/-- Settles O7: every word of the schedule is `scheduleWord`, which is the recurrence. -/
theorem scheduleObeysTheRecurrence : Obligations.ScheduleObeysTheRecurrence := by
  intro stale block
  refine ⟨fun i hi => ?copied, fun i hlow hi => ?expanded⟩
  case copied => rw [readWord_schedule _ _ (by omega), scheduleWord_of_lt block hi]
  case expanded =>
    have hread (k : Nat) : readWord (schedule stale block) (i - k) = scheduleWord block (i - k) :=
      readWord_schedule stale block (by omega)
    rw [readWord_schedule _ _ hi, hread, hread, hread, hread, scheduleWord_of_ge block hlow]

/-! ## The rounds -/

/-- The working variables after rounds 0 to `n - 1`. -/
def varsAfter (W : Vector Word 64) (v : WorkingVars) (n : Nat) : WorkingVars := (List.range n).foldl (roundStep W) v

theorem varsAfter_zero (W : Vector Word 64) (v : WorkingVars) : varsAfter W v 0 = v := rfl

theorem varsAfter_succ (W : Vector Word 64) (v : WorkingVars) (n : Nat) :
    varsAfter W v (n + 1) = roundStep W (varsAfter W v n) n := by
  rw [varsAfter, List.range_succ, List.foldl_concat, varsAfter]

theorem allRounds_eq_varsAfter (W : Vector Word 64) (v : WorkingVars) : allRounds W v = varsAfter W v 64 := by
  rw [allRounds, varsAfter]

/-! ## COMPRESS -/

theorem readWord_addBack (hash : Vector Word 8) (v : WorkingVars) :
    readWord (addBack hash v) 0 = readWord hash 0 + v.a ∧ readWord (addBack hash v) 1 = readWord hash 1 + v.b ∧
    readWord (addBack hash v) 2 = readWord hash 2 + v.c ∧ readWord (addBack hash v) 3 = readWord hash 3 + v.d ∧
    readWord (addBack hash v) 4 = readWord hash 4 + v.e ∧ readWord (addBack hash v) 5 = readWord hash 5 + v.f ∧
    readWord (addBack hash v) 6 = readWord hash 6 + v.g ∧ readWord (addBack hash v) 7 = readWord hash 7 + v.h :=
  ⟨rfl, rfl, rfl, rfl, rfl, rfl, rfl, rfl⟩

/-- Settles O8: the schedule is that of O7, the working variables are `varsAfter`, one round apart. -/
theorem compressRunsSixtyFourRounds : Obligations.CompressRunsSixtyFourRounds := by
  intro s
  refine ⟨readWord (schedule s.sched s.buf), varsAfter (schedule s.sched s.buf) (seedVars s.hash),
    scheduleObeysTheRecurrence s.sched s.buf, varsAfter_zero _ _, fun i _ => varsAfter_succ _ _ i, ?hash,
    compress_buf s, compress_bitlen s, compress_done s, compress_cmdIn s, compress_respOut s⟩
  case hash =>
    rw [compress_hash, allRounds_eq_varsAfter]
    exact readWord_addBack _ _

/-- Settles O9: the only scratch COMPRESS reads is the stale schedule, which SCHED overwrites. -/
theorem compressDependsOnHashAndBlockOnly : Obligations.CompressDependsOnHashAndBlockOnly := by
  intro s
  rw [compress_hash, foldBlock, schedule_stale_irrelevant s.sched]

end Sys2Proof.Machine
end

