-- ==== Sys2Proof/Proofs/PaddingFinalization.lean ====
section
/-! PROOF. The zero count, FINAL as one equation and its repetition, and the digest's bytes
(spec/43_padding_finalization.md R140 to R145, spec/44_host_commands.md R162). -/

namespace Sys2Proof.Machine

/-! ## The zero count -/

/-- A message of whole bytes stays byte-aligned after the marker byte, since 512 is a multiple of 8. -/
theorem lenAfterMarker_mod_eight {L : BitLength} (hL : L.toNat % 8 = 0) : lenAfterMarker L % 8 = 0 := by
  rw [lenAfterMarker]
  omega

theorem lenAfterMarker_le {L : BitLength} (hL : L.toNat % 8 = 0) : lenAfterMarker L ≤ 504 := by
  have haligned := lenAfterMarker_mod_eight hL
  have hlt : lenAfterMarker L < 512 := Nat.mod_lt _ (by decide)
  omega

/-- R140, past the length field's place: the zeros run on to bit 448 of the next block, and the division is exact. -/
theorem lenAfterMarker_add_zeros_of_gt {L : BitLength} (hL : L.toNat % 8 = 0) (h : 448 < lenAfterMarker L) :
    lenAfterMarker L + 8 * zeroCount L = 448 + 512 := by
  have haligned := lenAfterMarker_mod_eight hL
  have hle := lenAfterMarker_le hL
  rw [zeroCount, if_pos h]
  omega

/-- R140, up to the length field's place: the zeros run on to bit 448 of this block, and the division is exact. -/
theorem lenAfterMarker_add_zeros_of_le {L : BitLength} (hL : L.toNat % 8 = 0) (h : lenAfterMarker L ≤ 448) :
    lenAfterMarker L + 8 * zeroCount L = 448 := by
  have haligned := lenAfterMarker_mod_eight hL
  rw [zeroCount, if_neg h.not_gt]
  omega

/-- Past 448 the marker ends at 456 or later, which leaves room for at most 63 zero bytes; up to 448 for at most 56. -/
theorem zeroCount_le {L : BitLength} (hL : L.toNat % 8 = 0) : zeroCount L ≤ 63 := by
  have haligned := lenAfterMarker_mod_eight hL
  by_cases h : 448 < lenAfterMarker L
  · have hsum := lenAfterMarker_add_zeros_of_gt hL h
    omega
  · have hsum := lenAfterMarker_add_zeros_of_le hL (not_lt.1 h)
    omega

/-- Settles O15, from the two branches of the zero count. -/
theorem zeroCountIsExact : Obligations.ZeroCountIsExact := fun _ hL =>
  ⟨rfl, lenAfterMarker_mod_eight hL, lenAfterMarker_le hL, lenAfterMarker_add_zeros_of_gt hL,
    lenAfterMarker_add_zeros_of_le hL, zeroCount_le hL⟩

/-! ## The digest's bytes -/

/-- R44, R144: the digest is the eight words in order, four bytes each. -/
theorem digestOf_toList (hash : Vector Word 8) :
    (digestOf hash).toList = (List.range 8).flatMap fun i => (be32 (readWord hash i)).toList := by
  simp only [digestOf, Vector.toList_append]
  rfl

/-- Byte `4i + j` of the digest is lane `j` of `H[i]`: the list of `digestOf_toList` is read off at its 32 places. -/
theorem digestOf_toList_getElem? (hash : Vector Word 8) {i j : Nat} (hi : i < 8) (hj : j < 4) :
    (digestOf hash).toList[4 * i + j]? = some (lane (readWord hash i) j) := by
  rw [digestOf_toList]
  interval_cases i <;> interval_cases j <;> rfl

/-- Settles O18: a byte of the digest is a lane, and a lane is a range of bits. -/
theorem digestSerializesTheHash : Obligations.DigestSerializesTheHash := by
  intro hash i j hi hj
  rw [digestOf_toList_getElem? hash hi hj, lane_eq_extractLsb' _ hj]

/-! ## FINAL -/

theorem padInvariantBroken_iff (s : State) : padInvariantBroken s = true ↔ s.bitlen.toNat % 512 ≠ 0 :=
  decide_eq_true_iff

/-- R142, R162: FINAL in every state, as one equation. -/
theorem exec_final (s : State) :
    exec .final s = .next
      (if (padOnce s).bitlen.toNat % 512 ≠ 0 then raiseError .padInvariant (padOnce s)
       else respond (.digest (digestOf (padOnce s).hash)) (padOnce s)) := by
  split_ifs with h
  · exact exec_final_broken ((padInvariantBroken_iff _).2 h)
  · exact exec_final_digest (Bool.eq_false_iff.2 (mt (padInvariantBroken_iff _).1 h))

/-- A response is the only write of `respond`, so what it makes of the padded state can be said with the response stream
from before the padding. -/
theorem respond_padOnce (r : Response) (s : State) :
    respond r (padOnce s) = { padOnce s with respOut := s.respOut ++ encodeResponse r } := by
  rw [respond, padOnce_respOut]

/-- Settles O22: `exec_final`, with the error and the digest as the bytes they are on the response stream. -/
theorem finalPadsChecksAndAnswers : Obligations.FinalPadsChecksAndAnswers := by
  refine ⟨rfl, fun s => ?_⟩
  rw [exec_final, raiseError, respond_padOnce, respond_padOnce]
  rfl

/-! ## FINAL again -/

/-- R145: in a FINALIZED state that passes the check, FINAL answers the digest of `H` and writes nothing else. -/
theorem exec_final_finalized {t : State} (hdone : t.done = true) (hcheck : padInvariantBroken t = false) :
    exec .final t = .next (respond (.digest (digestOf t.hash)) t) := by
  have hpad : padOnce t = t := padOnce_of_done hdone
  rw [exec_final_digest (by rwa [hpad]), hpad]

/-- The status byte on the response stream tells which of its two answers FINAL gave: after a digest the padded state
passed the check, and the digest is that of its hash. -/
theorem exec_final_answered_digest {s t : State} {d : Digest} (h : exec .final s = .next t)
    (hresp : t.respOut = s.respOut ++ 0x01 :: d.toList) :
    padInvariantBroken (padOnce s) = false ∧ d = digestOf (padOnce s).hash ∧ t = respond (.digest d) (padOnce s) := by
  cases hb : padInvariantBroken (padOnce s) with
  | true =>
    rw [exec_final_broken hb] at h
    cases h
    simp [encodeResponse, errorNumber] at hresp
  | false =>
    rw [exec_final_digest hb] at h
    cases h
    have hd : digestOf (padOnce s).hash = d := by
      simpa [encodeResponse, Vector.toList_inj] using hresp
    exact ⟨rfl, hd.symm, by rw [hd]⟩

/-- Settles O24: the state after the digest is FINALIZED, has passed the check and keeps the hash that gave the digest. -/
theorem secondFinalRepeatsTheDigest : Obligations.SecondFinalRepeatsTheDigest := by
  intro s t d h hresp
  obtain ⟨hcheck, rfl, rfl⟩ := exec_final_answered_digest h hresp
  exact exec_final_finalized (exec_final_done h) hcheck

end Sys2Proof.Machine
end

