-- ==== Sys2Proof/Proofs/HostCommands.lean ====
section
/-! PROOF. The meanings of INIT and UPDATE (spec/44_host_commands.md R160, R161). -/

namespace Sys2Proof.Machine

/-! ## Headers as numbers -/

/-- R61: the field OP stands above the 14 bits of LEN. -/
theorem toNat_mkHeader (op : BitVec 2) {len : Nat} (h : len < 2 ^ 14) :
    (mkHeader op len).toNat = op.toNat * 2 ^ 14 + len := by
  rw [mkHeader, toNat_append_eq_mul_add, BitVec.toNat_ofNat, Nat.mod_eq_of_lt h]

/-- R45: the first byte of a header is its quotient by 256. -/
theorem headerHigh_eq_ofNat (hdr : Header) : headerHigh hdr = BitVec.ofNat 8 (hdr.toNat / 256) := by
  apply BitVec.eq_of_toNat_eq
  rw [headerHigh, BitVec.extractLsb'_toNat, Nat.shiftRight_eq_div_pow, BitVec.toNat_ofNat]

/-- R45: the second byte of a header is its remainder by 256. -/
theorem headerLow_eq_ofNat (hdr : Header) : headerLow hdr = BitVec.ofNat 8 (hdr.toNat % 256) := by
  apply BitVec.eq_of_toNat_eq
  rw [headerLow, BitVec.extractLsb'_toNat, Nat.shiftRight_zero, BitVec.toNat_ofNat, Nat.mod_mod]

/-- R62, R63: an UPDATE whose length fits the field LEN has the header `0x8000 + n`. -/
theorem toNat_encodeHeader_update {data : List Byte} (h : data.length ≤ 16383) :
    (encodeHeader (.update data)).toNat = 0x8000 + data.length :=
  toNat_mkHeader 0b10#2 (by omega)

/-! ## INIT -/

/-- Settles O20: INIT is `exec_init`, and `OK` is the byte `00`. -/
theorem initMakesANewInstance : Obligations.InitMakesANewInstance := ⟨rfl, exec_init⟩

/-! ## UPDATE -/

theorem lengthOverflows_iff (s : State) (n : Nat) : lengthOverflows s n = true ↔ 2 ^ 64 ≤ s.bitlen.toNat + 8 * n :=
  decide_eq_true_iff

/-- R161: an UPDATE that passes both guards absorbs its chunk and answers `OK`. -/
theorem exec_update_of_fits {s : State} {data : List Byte} (hdone : s.done = false)
    (hfits : s.bitlen.toNat + 8 * data.length < 2 ^ 64) :
    exec (.update data) s = .next (respond .ok (absorb data s)) :=
  exec_update_accepted hdone (Bool.eq_false_iff.2 (mt (lengthOverflows_iff s _).1 (by omega)))

/-- R124: below 2^64 bits the counter does not wrap. -/
theorem absorb_bitlen_toNat_of_fits {s : State} {data : List Byte}
    (hfits : s.bitlen.toNat + 8 * data.length < 2 ^ 64) :
    (absorb data s).bitlen.toNat = s.bitlen.toNat + 8 * data.length := by
  rw [absorb_bitlen, BitVec.toNat_add, BitVec.toNat_ofNat]
  omega

/-- Settles O21: the encoding from the header as a number, the effect from the two guards in their order. -/
theorem updateChecksThenAbsorbs : Obligations.UpdateChecksThenAbsorbs := by
  refine ⟨fun data h => ?encoding, fun data s => ⟨?finalized, ?overflow, ?accepted, ?empty⟩⟩
  case encoding =>
    rw [encode, headerHigh_eq_ofNat, headerLow_eq_ofNat, toNat_encodeHeader_update h]
    rfl
  case finalized => exact fun hdone => exec_update_finalized hdone data
  case overflow => exact fun hdone hover => exec_update_overflow hdone ((lengthOverflows_iff s _).2 hover)
  case accepted =>
    intro hdone hfits
    rw [exec_update_of_fits hdone hfits, respond, absorb_respOut]
    exact ⟨rfl, absorb_bitlen_toNat_of_fits hfits⟩
  case empty =>
    intro hdone
    rw [exec_update_of_fits (data := []) hdone s.bitlen.isLt, absorb_nil]
    rfl

end Sys2Proof.Machine
end

