-- ==== Sys2Proof/Proofs/ByteStrings.lean ====
section
/-! PROOF. The words and blocks of a byte string, and what one more byte does to them: the string's side of the closed
form of the buffer (spec/10_state.md R24) and of the folded hash (spec/44_host_commands.md R166). -/

namespace Sys2Proof.Machine

/-! ## Words of a byte string, lane by lane -/

theorem lane_wordBE (b0 b1 b2 b3 : Byte) :
    lane (wordBE b0 b1 b2 b3) 0 = b0 ∧ lane (wordBE b0 b1 b2 b3) 1 = b1 ∧ lane (wordBE b0 b1 b2 b3) 2 = b2 ∧
      lane (wordBE b0 b1 b2 b3) 3 = b3 := by
  simp only [lane_eq_extractLsb', Nat.reduceLT, wordBE_eq_append]
  refine ⟨?_, ?_, ?_, ?_⟩ <;>
  · apply BitVec.eq_of_getLsbD_eq
    intro k hk
    simp only [BitVec.getLsbD_extractLsb', BitVec.getLsbD_append]
    grind

theorem lane_wordAt (bytes : List Byte) (i : Nat) {l : Nat} (h : l < 4) :
    lane (wordAt bytes i) l = bytes.getD (4 * i + l) 0 := by
  obtain ⟨h0, h1, h2, h3⟩ := lane_wordBE (bytes.getD (4 * i) 0) (bytes.getD (4 * i + 1) 0)
    (bytes.getD (4 * i + 2) 0) (bytes.getD (4 * i + 3) 0)
  rw [wordAt]
  interval_cases l
  exacts [h0, h1, h2, h3]

theorem eq_of_lane_eq {u v : Word} (h : ∀ l < 4, lane u l = lane v l) : u = v := by
  rw [← wordBE_lanes u, ← wordBE_lanes v, h 0 (by decide), h 1 (by decide), h 2 (by decide), h 3 (by decide)]

/-- The bytes past the end of a string read as 0. -/
theorem wordAt_of_length_le {bytes : List Byte} {i : Nat} (h : bytes.length ≤ 4 * i) : wordAt bytes i = 0 := by
  refine eq_of_lane_eq fun l hl => ?_
  rw [lane_wordAt _ _ hl, lane_zero, List.getD_eq_default _ _ (by omega)]

/-- A word that lies within a string does not change when bytes are appended. -/
theorem wordAt_append_of_le {bytes : List Byte} {i : Nat} (h : 4 * i + 4 ≤ bytes.length) (more : List Byte) :
    wordAt (bytes ++ more) i = wordAt bytes i := by
  refine eq_of_lane_eq fun l hl => ?_
  rw [lane_wordAt _ _ hl, lane_wordAt _ _ hl, List.getD_append _ _ _ _ (by omega)]

/-- R125: the lanes past the end of a string are zero, so an exclusive-or puts the next byte there. -/
theorem wordAt_append_byte {bytes : List Byte} {i l : Nat} (hl : l < 4) (h : bytes.length = 4 * i + l) (b : Byte) :
    wordAt (bytes ++ [b]) i = wordAt bytes i ^^^ byteInLane b l := by
  refine eq_of_lane_eq fun m hm => ?_
  rw [lane_xor, lane_wordAt _ _ hm, lane_wordAt _ _ hm]
  obtain hlt | rfl | hgt := lt_trichotomy m l
  · rw [lane_byteInLane_other b hl hm hlt.ne', List.getD_append _ _ _ _ (by omega)]
    exact BitVec.xor_zero.symm
  · rw [lane_byteInLane_same b hm, List.getD_eq_default _ _ h.le, ← h]
    simp
  · rw [lane_byteInLane_other b hl hm hgt.ne, List.getD_eq_default _ _ (by simp; omega),
      List.getD_eq_default _ _ (by omega)]
    exact BitVec.xor_zero.symm

/-! ## Blocks of a byte string -/

theorem length_currentBlock (bytes : List Byte) : (currentBlock bytes).length = bytes.length % 64 := by
  rw [currentBlock, List.length_drop]
  omega

theorem readWord_blockOf (bytes : List Byte) {i : Nat} (hi : i < 16) : readWord (blockOf bytes) i = wordAt bytes i := by
  simp [blockOf, readWord, hi]

/-- A block is the first 64 bytes of its string. -/
theorem blockOf_append_of_le {bytes : List Byte} (h : 64 ≤ bytes.length) (more : List Byte) :
    blockOf (bytes ++ more) = blockOf bytes := by
  refine eq_of_readWord_eq fun i hi => ?_
  rw [readWord_blockOf _ hi, readWord_blockOf _ hi, wordAt_append_of_le (by omega)]

/-- Folding blocks reads the complete blocks only. -/
theorem foldBlocks_append_of_le {q : Nat} {bytes : List Byte} (h : 64 * q ≤ bytes.length) (more : List Byte)
    (hash : Vector Word 8) : foldBlocks q (bytes ++ more) hash = foldBlocks q bytes hash := by
  induction q generalizing bytes hash with
  | zero => rfl
  | succ q ih =>
    rw [foldBlocks, foldBlocks, blockOf_append_of_le (by omega), List.drop_append_of_le_length (by omega),
      ih (by rw [List.length_drop]; omega)]

/-- The last of the folded blocks comes last (R106). -/
theorem foldBlocks_succ (q : Nat) (bytes : List Byte) (hash : Vector Word 8) :
    foldBlocks (q + 1) bytes hash = foldBlock (foldBlocks q bytes hash) (blockOf (bytes.drop (64 * q))) := by
  induction q generalizing bytes hash with
  | zero => rfl
  | succ q ih => rw [foldBlocks, ih, List.drop_drop, foldBlocks, Nat.mul_succ, Nat.add_comm]

/-! ## A string grown by one byte -/

section InsideABlock

variable {bytes : List Byte} (h : bytes.length % 64 < 63) (b : Byte)
include h

theorem blocks_append_byte : (bytes ++ [b]).length / 64 = bytes.length / 64 := by
  rw [List.length_append, List.length_singleton]
  omega

theorem hashOfBytes_append_byte : hashOfBytes (bytes ++ [b]) = hashOfBytes bytes := by
  rw [hashOfBytes, blocks_append_byte h b, foldBlocks_append_of_le (by omega), hashOfBytes]

theorem currentBlock_append_byte : currentBlock (bytes ++ [b]) = currentBlock bytes ++ [b] := by
  rw [currentBlock, blocks_append_byte h b, List.drop_append_of_le_length (by omega), currentBlock]

theorem previousBlock_append_byte : previousBlock (bytes ++ [b]) = previousBlock bytes := by
  rw [previousBlock, blocks_append_byte h b, previousBlock]
  split
  · rfl
  · rw [List.drop_append_of_le_length (by omega), List.take_append_of_le_length (by rw [List.length_drop]; omega)]

end InsideABlock

section AtTheEndOfABlock

variable {bytes : List Byte} (h : bytes.length % 64 = 63) (b : Byte)
include h

theorem blocks_append_last_byte : (bytes ++ [b]).length / 64 = bytes.length / 64 + 1 := by
  rw [List.length_append, List.length_singleton]
  omega

theorem hashOfBytes_append_last_byte :
    hashOfBytes (bytes ++ [b]) = foldBlock (hashOfBytes bytes) (blockOf (currentBlock bytes ++ [b])) := by
  rw [hashOfBytes, blocks_append_last_byte h b, foldBlocks_succ, foldBlocks_append_of_le (by omega),
    List.drop_append_of_le_length (by omega), hashOfBytes, currentBlock]

theorem previousBlock_append_last_byte : previousBlock (bytes ++ [b]) = currentBlock bytes ++ [b] := by
  rw [previousBlock, blocks_append_last_byte h b, if_neg (by omega), Nat.add_sub_cancel,
    List.drop_append_of_le_length (by omega), ← currentBlock]
  exact List.take_of_length_le (by rw [List.length_append, length_currentBlock, List.length_singleton]; omega)

end AtTheEndOfABlock

end Sys2Proof.Machine
end

