-- ==== Sys2Proof/Proofs/AbsorbedString.lean ====
section
/-! PROOF. ABSORB appends its chunk to the absorbed string: the buffer keeps its closed form and the hash state that of
the complete blocks (spec/42_streaming_buffer.md R122 to R127, spec/10_state.md R24). -/

namespace Sys2Proof.Machine

/-! ## The registers that ABSORB assembles -/

/-- The part of `Represents` that ABSORB builds up byte by byte; `BITLEN` it advances once, for the whole chunk
(R124). -/
structure HoldsBytes (s : State) (bytes : List Byte) : Prop where
  hash : s.hash = hashOfBytes bytes
  buf : ∀ i < 16, readWord s.buf i = bufferWord bytes i

theorem represents_iff (s : State) (bytes : List Byte) :
    Represents s bytes ↔ HoldsBytes s bytes ∧ s.bitlen = bitCount bytes :=
  ⟨fun ⟨hhash, hbuf, hbits⟩ => ⟨⟨hhash, hbuf⟩, hbits⟩, fun ⟨⟨hhash, hbuf⟩, hbits⟩ => ⟨hhash, hbuf, hbits⟩⟩

/-- Between two words of a chunk the word `w` that comes next may hold anything: it is set to zero before its first
byte, or assigned (R125). -/
structure AtWordBoundary (w : Nat) (s : State) (bytes : List Byte) : Prop where
  cursor : bytes.length % 64 = 4 * w
  zeroed : HoldsBytes (bufSetWord w 0 s) bytes

/-! ## One byte -/

section OneByte

variable {s : State} {bytes : List Byte} {w l : Nat} (hcur : bytes.length % 64 = 4 * w + l) (h : HoldsBytes s bytes)
include hcur h

/-- R24 after one more byte: the words up to the cursor's are those of the grown block, those above are stale. -/
theorem readWord_bufXorByte (hl : l < 4) (b : Byte) {i : Nat} (hi : i < 16) :
    readWord (bufXorByte w l b s).buf i =
      if i ≤ w then wordAt (currentBlock bytes ++ [b]) i else wordAt (previousBlock bytes) i := by
  have hw : bytes.length % 64 / 4 = w := by omega
  have hlen := length_currentBlock bytes
  have hold : readWord s.buf i = if i ≤ w then wordAt (currentBlock bytes) i else wordAt (previousBlock bytes) i := by
    rw [h.buf i hi, bufferWord, hw]
  rw [bufXorByte_buf]
  obtain hlt | rfl | hgt := lt_trichotomy i w
  · rw [readWord_writeWord_other _ hlt.ne', hold, if_pos hlt.le, if_pos hlt.le, wordAt_append_of_le (by omega)]
  · rw [readWord_writeWord_same _ hi, hold, if_pos le_rfl, if_pos le_rfl, wordAt_append_byte hl (by omega)]
  · rw [readWord_writeWord_other _ hgt.ne, hold, if_neg hgt.not_ge, if_neg hgt.not_ge]

/-- A byte that does not complete its word. -/
theorem bufXorByte_holds (hl : l < 3) (b : Byte) : HoldsBytes (bufXorByte w l b s) (bytes ++ [b]) where
  hash := by rw [bufXorByte_hash, h.hash, hashOfBytes_append_byte (by omega)]
  buf i hi := by
    have hw : (bytes ++ [b]).length % 64 / 4 = w := by simp; omega
    rw [readWord_bufXorByte hcur h (by omega) b hi, bufferWord, hw, currentBlock_append_byte (by omega),
      previousBlock_append_byte (by omega)]

/-- The byte that completes a word inside a block. -/
theorem bufXorByte_completes_word (hl : l = 3) (hw : w + 1 < 16) (b : Byte) :
    AtWordBoundary (w + 1) (bufXorByte w l b s) (bytes ++ [b]) where
  cursor := by simp; omega
  zeroed.hash := by rw [bufSetWord_hash, bufXorByte_hash, h.hash, hashOfBytes_append_byte (by omega)]
  zeroed.buf i hi := by
    have hnext : (bytes ++ [b]).length % 64 / 4 = w + 1 := by simp; omega
    have hlen := length_currentBlock bytes
    rw [bufSetWord_buf, bufferWord, hnext, currentBlock_append_byte (by omega), previousBlock_append_byte (by omega)]
    obtain hlt | rfl | hgt := lt_trichotomy i (w + 1)
    · rw [readWord_writeWord_other _ hlt.ne', readWord_bufXorByte hcur h (by omega) b hi, if_pos (by omega),
        if_pos hlt.le]
    · rw [readWord_writeWord_same _ hi, if_pos le_rfl, wordAt_of_length_le (by simp; omega)]
    · rw [readWord_writeWord_other _ hgt.ne, readWord_bufXorByte hcur h (by omega) b hi, if_neg (by omega),
        if_neg hgt.not_ge]

/-- The byte that completes the block: COMPRESS folds it into `H`, and the cursor goes back to word 0 (R126). -/
theorem bufXorByte_completes_block (hl : l = 3) (hw : w = 15) (b : Byte) :
    AtWordBoundary 0 (compress (bufXorByte w l b s)) (bytes ++ [b]) := by
  have hword : ∀ i < 16, readWord (bufXorByte w l b s).buf i = wordAt (currentBlock bytes ++ [b]) i :=
    fun i hi => by rw [readWord_bufXorByte hcur h (by omega) b hi, if_pos (by omega)]
  have hblock : (bufXorByte w l b s).buf = blockOf (currentBlock bytes ++ [b]) :=
    eq_of_readWord_eq fun i hi => by rw [hword i hi, readWord_blockOf _ hi]
  have hnext : (bytes ++ [b]).length % 64 = 0 := by simp; omega
  refine ⟨by rw [hnext], ?hash, fun i hi => ?buf⟩
  case hash =>
    rw [bufSetWord_hash, compressDependsOnHashAndBlockOnly, hblock, bufXorByte_hash, h.hash,
      hashOfBytes_append_last_byte (by omega)]
  case buf =>
    rw [bufSetWord_buf, compress_buf, bufferWord, hnext, previousBlock_append_last_byte (by omega)]
    obtain rfl | hpos := Nat.eq_zero_or_pos i
    · rw [readWord_writeWord_same _ hi, if_pos (Nat.zero_le _),
        wordAt_of_length_le (by rw [length_currentBlock]; omega)]
    · rw [readWord_writeWord_other _ hpos.ne, hword i hi, if_neg (by omega)]

/-- The byte that completes a word, in both cases of the word's completion. -/
theorem wordCompleted_bufXorByte (hl : l = 3) (b : Byte) :
    AtWordBoundary (wordCompleted w (bufXorByte w l b s)).1 (wordCompleted w (bufXorByte w l b s)).2
      (bytes ++ [b]) := by
  obtain ⟨hw, heq⟩ | ⟨hw, heq⟩ := wordCompleted_cases w (bufXorByte w l b s) <;> rw [heq]
  · exact bufXorByte_completes_block hcur h hl (by omega) b
  · exact bufXorByte_completes_word hcur h hl (by omega) b

end OneByte

/-! ## The bytes of one word -/

/-- The insertions of steps 3 and 7 that leave their word incomplete. -/
theorem xorBytes_holds {s : State} {bytes data : List Byte} {w l : Nat} (hcur : bytes.length % 64 = 4 * w + l)
    (hshort : l + data.length < 4) (h : HoldsBytes s bytes) : HoldsBytes (xorBytes w l data s) (bytes ++ data) := by
  induction data generalizing s bytes l with
  | nil => simpa using h
  | cons b rest ih =>
    rw [List.length_cons] at hshort
    rw [xorBytes_cons, List.append_cons]
    exact ih (by simp; omega) (by omega) (bufXorByte_holds hcur h (by omega) b)

/-- The insertions of step 3 that complete their word. -/
theorem wordCompleted_xorBytes {s : State} {bytes data : List Byte} {w l : Nat} (hcur : bytes.length % 64 = 4 * w + l)
    (hl : l < 4) (hfull : l + data.length = 4) (h : HoldsBytes s bytes) :
    AtWordBoundary (wordCompleted w (xorBytes w l data s)).1 (wordCompleted w (xorBytes w l data s)).2
      (bytes ++ data) := by
  induction data generalizing s bytes l with
  | nil => rw [List.length_nil] at hfull; omega
  | cons b rest ih =>
    rw [List.length_cons] at hfull
    obtain rfl | hrest := eq_or_ne rest []
    · exact wordCompleted_bufXorByte hcur h (by simpa using hfull) b
    · have hpos := List.length_pos_of_ne_nil hrest
      rw [xorBytes_cons, List.append_cons]
      exact ih (by simp; omega) (by omega) (by omega) (bufXorByte_holds hcur h (by omega) b)

theorem bufXorByte_bufSetWord {w : Nat} (hw : w < 16) (l : Nat) (b : Byte) (v : Word) (s : State) :
    bufXorByte w l b (bufSetWord w v s) = bufSetWord w (v ^^^ byteInLane b l) s := by
  rw [bufXorByte, bufSetWord_buf, readWord_writeWord_same _ hw]
  simp only [bufSetWord, writeWord, Vector.setIfInBounds_setIfInBounds]

/-- R125: a quartet's word is its four bytes inserted into a word of zeros, as `wordAt_append_byte` adds them. -/
theorem wordBE_eq_xor (b0 b1 b2 b3 : Byte) :
    wordBE b0 b1 b2 b3 = 0 ^^^ byteInLane b0 0 ^^^ byteInLane b1 1 ^^^ byteInLane b2 2 ^^^ byteInLane b3 3 := by
  rw [← wordAt_of_length_le (bytes := []) (i := 0) (Nat.zero_le _), ← wordAt_append_byte (by decide) rfl b0,
    ← wordAt_append_byte (by decide) rfl b1, ← wordAt_append_byte (by decide) rfl b2,
    ← wordAt_append_byte (by decide) rfl b3]
  rfl

/-- R125: assigning a quartet is zeroing the word and inserting the four bytes. -/
theorem bufSetWord_wordBE {w : Nat} (hw : w < 16) (b0 b1 b2 b3 : Byte) (s : State) :
    bufSetWord w (wordBE b0 b1 b2 b3) s = xorBytes w 0 [b0, b1, b2, b3] (bufSetWord w 0 s) := by
  simp only [xorBytes_cons, xorBytes_nil, bufXorByte_bufSetWord hw, wordBE_eq_xor]

/-! ## The whole chunk -/

theorem length_lt_four_of_no_quartet {left : List Byte}
    (h : ∀ b0 b1 b2 b3 rest, left = b0 :: b1 :: b2 :: b3 :: rest → False) : left.length < 4 := by
  match left, h with
  | [], _ | [_], _ | [_, _], _ | [_, _, _], _ => simp
  | b0 :: b1 :: b2 :: b3 :: rest, h => exact (h b0 b1 b2 b3 rest rfl).elim

/-- Steps 6 and 7 of ABSORB append their bytes. -/
theorem absorbWords_holds {data : List Byte} {w : Nat} {s : State} {bytes : List Byte}
    (h : AtWordBoundary w s bytes) : HoldsBytes (absorbWords data w s) (bytes ++ data) := by
  induction data, w, s using absorbWords.induct generalizing bytes with
  | case1 b0 b1 b2 b3 rest w s ih =>
    obtain ⟨hcur, hzero⟩ := h
    have hw : w < 16 := by omega
    rw [bufSetWord_wordBE hw] at ih
    rw [absorbWords, bufSetWord_wordBE hw]
    simpa using ih (wordCompleted_xorBytes hcur (by decide) rfl hzero)
  | case2 left w s hleft =>
    have hlen := length_lt_four_of_no_quartet hleft
    rw [absorbWords.eq_2 _ _ _ hleft]
    exact xorBytes_holds h.cursor (by omega) h.zeroed

/-- R125: an engine whose cursor is at the start of a word holds zero there already. -/
theorem HoldsBytes.atWordBoundary {s : State} {bytes : List Byte} {w : Nat} (hcur : bytes.length % 64 = 4 * w)
    (h : HoldsBytes s bytes) : AtWordBoundary w s bytes := by
  refine ⟨hcur, by rw [bufSetWord_hash, h.hash], fun i hi => ?_⟩
  rw [bufSetWord_buf]
  obtain rfl | hne := eq_or_ne w i
  · rw [readWord_writeWord_same _ hi, bufferWord, if_pos (by omega),
      wordAt_of_length_le (by rw [length_currentBlock]; omega)]
  · rw [readWord_writeWord_other _ hne, h.buf i hi]

/-- ABSORB without the counter: the head (step 3), then the three ways to go on from step 5. -/
theorem absorbBody_holds {s : State} {bytes : List Byte} {w l : Nat} (hcur : bytes.length % 64 = 4 * w + l) (hl : l < 4)
    (h : HoldsBytes s bytes) (data : List Byte) :
    HoldsBytes (absorbBody w ((4 - l) % 4) data (xorBytes w l (data.take ((4 - l) % 4)) s)) (bytes ++ data) := by
  unfold absorbBody
  split_ifs with hshort hhead
  · rw [List.take_of_length_le hshort.le]
    exact xorBytes_holds hcur (by omega) h
  · have hfull : l + (data.take ((4 - l) % 4)).length = 4 := by rw [List.length_take]; omega
    have hrest := absorbWords_holds (data := data.drop ((4 - l) % 4)) (wordCompleted_xorBytes hcur hl hfull h)
    rwa [List.append_assoc, List.take_append_drop] at hrest
  · have hnone : (4 - l) % 4 = 0 := by omega
    rw [hnone, List.take_zero, xorBytes_nil]
    exact absorbWords_holds (h.atWordBoundary (by omega))

theorem xorBytes_advanceBitlen (n w l : Nat) (data : List Byte) (s : State) :
    xorBytes w l data (advanceBitlen n s) = advanceBitlen n (xorBytes w l data s) := by
  induction data generalizing l s with
  | nil => rfl
  | cons b rest ih => rw [xorBytes_cons, xorBytes_cons, ← ih]; rfl

/-- The cursor read off `BITLEN` is the end of the represented string, even where the counter has wrapped, since 512
divides 2^64. -/
theorem cursor_of_bitCount {s : State} {bytes : List Byte} (h : s.bitlen = bitCount bytes) :
    bytes.length % 64 = 4 * cursorWord s + cursorLane s := by
  rw [cursorWord, cursorLane, h, bitCount, BitVec.toNat_ofNat]
  omega

theorem bitCount_append (bytes more : List Byte) :
    bitCount (bytes ++ more) = bitCount bytes + BitVec.ofNat 64 (8 * more.length) := by
  rw [bitCount, bitCount, List.length_append, Nat.mul_add, BitVec.ofNat_add]

/-- ABSORB appends its chunk to the represented string, whatever their lengths. -/
theorem absorb_represents {s : State} {bytes : List Byte} (h : Represents s bytes) (data : List Byte) :
    Represents (absorb data s) (bytes ++ data) := by
  obtain ⟨hholds, hbits⟩ := (represents_iff s bytes).1 h
  obtain rfl | hne := eq_or_ne data []
  · simpa using h
  · refine (represents_iff _ _).2 ⟨?_, by rw [absorb_bitlen, hbits, bitCount_append]⟩
    have hlane : cursorLane s < 4 := by rw [cursorLane]; omega
    have hadvanced : HoldsBytes (advanceBitlen data.length s) bytes := ⟨hholds.hash, hholds.buf⟩
    rw [absorb_of_ne_nil hne, ← xorBytes_advanceBitlen, headNeeded]
    exact absorbBody_holds (cursor_of_bitCount hbits) hlane hadvanced data

end Sys2Proof.Machine
end

