-- ==== Sys2Proof/Proofs/ChunkStream.lean ====
section
/-! PROOF. FINAL answers the digest of the message the engine holds, and a stream of UPDATEs and a FINAL that of the
chunks' concatenation (spec/43_padding_finalization.md R142 to R147, spec/44_host_commands.md R161 to R166). -/

namespace Sys2Proof.Machine

/-! ## FINAL on a represented message -/

theorem length_padBytes (L : BitLength) : (padBytes L).length = zeroCount L + 9 := by
  simp [padBytes, be64]

/-- R142, R146: with its padding a message is a whole number of blocks. -/
theorem length_padded_mod (message : List Byte) : (message ++ padBytes (bitCount message)).length % 64 = 0 := by
  have hL : (bitCount message).toNat % 8 = 0 := by rw [bitCount, BitVec.toNat_ofNat]; omega
  have hafter : lenAfterMarker (bitCount message) = (8 * message.length + 8) % 512 := by
    rw [lenAfterMarker, bitCount, BitVec.toNat_ofNat]
    omega
  rw [List.length_append, length_padBytes]
  by_cases h : 448 < lenAfterMarker (bitCount message)
  · have hsum := lenAfterMarker_add_zeros_of_gt hL h
    omega
  · have hsum := lenAfterMarker_add_zeros_of_le hL (not_lt.1 h)
    omega

theorem padOnce_represents {s : State} {message : List Byte} (hdone : s.done = false) (h : Represents s message) :
    Represents (padOnce s) (message ++ padBytes (bitCount message)) := by
  have hset : Represents (setDone s) message := h
  obtain ⟨-, -, hbits⟩ := h
  rw [padOnce_of_active hdone, hbits]
  exact absorb_represents hset _

/-- R143, R147: the check cannot fail, since the counter holds the length of whole blocks. -/
theorem padInvariantBroken_of_whole_blocks {s : State} {bytes : List Byte} (h : Represents s bytes)
    (hwhole : bytes.length % 64 = 0) : padInvariantBroken s = false := by
  obtain ⟨-, -, hbits⟩ := h
  have hmod : s.bitlen.toNat % 512 = 0 := by
    rw [hbits, bitCount, BitVec.toNat_ofNat]
    omega
  exact Bool.eq_false_iff.2 fun hb => (padInvariantBroken_iff s).1 hb hmod

/-- FINAL on an ACTIVE engine answers the SHA-256 digest of the message it holds (R162, R166). -/
theorem exec_final_of_represents {s : State} {message : List Byte} (hdone : s.done = false)
    (h : Represents s message) : exec .final s = .next (respond (.digest (sha256 message)) (padOnce s)) := by
  have hpad := padOnce_represents hdone h
  have hhash : (padOnce s).hash = hashOfBytes (message ++ padBytes (bitCount message)) := hpad.1
  rw [exec_final_digest (padInvariantBroken_of_whole_blocks hpad (length_padded_mod message)), hhash, sha256]

/-- UPDATE on an ACTIVE engine whose message stays below 2^64 bits is accepted (R161). -/
theorem exec_update_of_represents {s : State} {message data : List Byte} (hdone : s.done = false)
    (h : Represents s message) (hfits : 8 * (message ++ data).length < 2 ^ 64) :
    exec (.update data) s = .next (respond .ok (absorb data s)) := by
  obtain ⟨-, -, hbits⟩ := h
  refine exec_update_of_fits hdone ?_
  rw [List.length_append] at hfits
  rw [hbits, bitCount, BitVec.toNat_ofNat]
  omega

/-! ## A command at the front of the stream -/

theorem headerOfBytes_high_low (hdr : Header) : headerOfBytes (headerHigh hdr) (headerLow hdr) = hdr := by
  have hjoin : hdr.extractLsb' 8 8 ++ hdr.extractLsb' 0 8 = hdr.extractLsb' 0 16 :=
    BitVec.extractLsb'_append_extractLsb'_eq_extractLsb' rfl
  rw [headerOfBytes, headerHigh, headerLow, hjoin, BitVec.extractLsb'_eq_self]

theorem decode_encode_append (i : Instr) (rest : List Byte) :
    decode (encode i ++ rest) = decodeHeader (encodeHeader i) (payload i ++ rest) := by
  rw [encode, List.cons_append, List.cons_append, decode_cons_cons, headerOfBytes_high_low]

/-- R66: the decoder reads an encoded UPDATE back, whatever follows it. -/
theorem decode_encode_update {data : List Byte} (h : data.length ≤ 16383) (rest : List Byte) :
    decode (encode (.update data) ++ rest) = .command (.update data) rest := by
  have hnum := toNat_encodeHeader_update h
  have hop : opField (encodeHeader (.update data)) = 0b10#2 := by
    apply BitVec.eq_of_toNat_eq
    have htop : (0x8000 + data.length) / 2 ^ 14 = 2 := by omega
    rw [toNat_opField, hnum, htop]
    rfl
  have hlen : lenField (encodeHeader (.update data)) = data.length := by
    rw [lenField_eq_mod, hnum]
    omega
  rw [decode_encode_append, decodeHeader, hop, hlen]
  simp [payload]

theorem decode_encode_final (rest : List Byte) : decode (encode .final ++ rest) = .command .final rest := by
  rw [decode_encode_append]
  rfl

theorem step_command {s : State} {i : Instr} {rest : List Byte} (h : decode s.cmdIn = .command i rest) :
    step s = exec i (consume rest s) := by
  simp [step, fetch, h]

/-! ## Runs -/

theorem run_succ_of_step (M : Host.Core) {s t : M.State} (h : M.step s = .next t) (k : Nat) :
    M.run (k + 1) s = M.run k t := by
  rw [Host.Core.run, h]

/-- The registers of the initial state represent the empty message (R37). -/
theorem represents_nil {s : State} (hhash : s.hash = Config.IV) (hbuf : ∀ i < 16, readWord s.buf i = 0)
    (hbits : s.bitlen = 0) : Represents s [] := by
  refine ⟨hhash, fun i hi => ?_, hbits⟩
  have hword : bufferWord [] i = 0 := by
    rw [bufferWord]
    split <;> exact wordAt_of_length_le (Nat.zero_le _)
  rw [hbuf i hi, hword]

/-- The command stream of R166: the encoded chunks, then FINAL. -/
def chunkStream (chunks : List (List Byte)) : List Byte :=
  chunks.flatMap (fun c => encode (.update c)) ++ encode .final

/-- R166 from any message on: the engine that holds `message` and finds the chunks on its command stream absorbs them
one by one, and FINAL answers the digest of the whole. -/
theorem run_chunkStream {s : State} {message : List Byte} {chunks : List (List Byte)} (hdone : s.done = false)
    (h : Represents s message) (hchunks : ∀ c ∈ chunks, c.length ≤ 16383)
    (hfits : 8 * (message ++ chunks.flatten).length < 2 ^ 64) (hcmd : s.cmdIn = chunkStream chunks) :
    ∃ t : State, core.run (chunks.length + 1) s = .next t ∧ t.cmdIn = [] ∧
      t.respOut = s.respOut ++ List.replicate chunks.length 0x00 ++
        0x01 :: (sha256 (message ++ chunks.flatten)).toList := by
  induction chunks generalizing s message with
  | nil =>
    have hdec : decode s.cmdIn = .command .final [] := by rw [hcmd]; exact decode_encode_final []
    have hstep := (step_command hdec).trans (exec_final_of_represents (s := consume [] s) hdone h)
    exact ⟨_, run_succ_of_step core hstep 0, by simp, by simp [encodeResponse]⟩
  | cons c chunks ih =>
    rw [List.flatten_cons, ← List.append_assoc] at hfits ⊢
    have hc : c.length ≤ 16383 := hchunks c List.mem_cons_self
    have hrest : ∀ d ∈ chunks, d.length ≤ 16383 := fun d hd => hchunks d (List.mem_cons_of_mem c hd)
    have hdec : decode s.cmdIn = .command (.update c) (chunkStream chunks) := by
      rw [hcmd, chunkStream, List.flatMap_cons, List.append_assoc, decode_encode_update hc, chunkStream]
    have hconsumed : Represents (consume (chunkStream chunks) s) message := h
    have hsofar : 8 * (message ++ c).length < 2 ^ 64 := by
      rw [List.length_append] at hfits
      omega
    have hstep := (step_command hdec).trans (exec_update_of_represents hdone hconsumed hsofar)
    have hnext : Represents (respond .ok (absorb c (consume (chunkStream chunks) s))) (message ++ c) :=
      absorb_represents hconsumed c
    obtain ⟨t, hrun, hcmdIn, hresp⟩ := ih (by simpa using hdone) hnext hrest hfits (by simp)
    refine ⟨t, (run_succ_of_step core hstep _).trans hrun, hcmdIn, ?_⟩
    rw [hresp]
    simp [encodeResponse, List.replicate_succ]

/-- Settles O48: the initial state represents the empty message, from which the stream appends its chunks. -/
theorem streamOfChunksHashesTheirConcatenation : Obligations.StreamOfChunksHashesTheirConcatenation := by
  intro s chunks hhash hbuf hbits hdone hchunks hfits hcmd
  have hrun := run_chunkStream hdone (represents_nil hhash hbuf hbits) hchunks (by rwa [List.nil_append]) hcmd
  rwa [List.nil_append] at hrun

end Sys2Proof.Machine
end

