-- ==== Sys2Proof/Proofs/Responses.lean ====
section
/-! PROOF. A response is known by its bytes on the response stream (spec/30_encoding.md R70). -/

namespace Sys2Proof.Machine

theorem takeDigest_append (d : Digest) (rest : List Byte) : takeDigest (d.toList ++ rest) = some (d, rest) := by
  have hread : (Vector.ofFn fun i : Fin 32 => (d.toList ++ rest).getD i.val 0) = d := by
    ext i hi : 1
    simp [List.getElem?_append_left]
  rw [takeDigest, if_pos (by simp), hread, List.drop_left' d.length_toList]

/-- R70: a host reads back the response that the engine put on the stream, whatever follows it. -/
theorem decodeResponse_encodeResponse (r : Response) (rest : List Byte) :
    decodeResponse (encodeResponse r ++ rest) = some (r, rest) := by
  cases r with
  | ok => rfl
  | digest d =>
    have hstatus : decodeResponse (encodeResponse (.digest d) ++ rest) =
        (takeDigest (d.toList ++ rest)).map fun p => (.digest p.1, p.2) := rfl
    rw [hstatus, takeDigest_append, Option.map_some]
  | err e => cases e <;> rfl

/-- No two responses look alike on the stream, since each is read back. -/
theorem encodeResponse_injective : Function.Injective encodeResponse := by
  intro r r' h
  have hread := decodeResponse_encodeResponse r []
  rw [h, decodeResponse_encodeResponse] at hread
  cases hread
  rfl

/-- What a command appended to the response stream tells which response it gave. -/
theorem response_of_respOut {r r' : Response} {s : State} {out : List Byte} (hs : s.respOut = out)
    (h : (respond r s).respOut = out ++ encodeResponse r') : r = r' := by
  rw [respond_respOut, hs] at h
  exact encodeResponse_injective (List.append_cancel_left h)

end Sys2Proof.Machine
end

