-- ==== Sys2Proof/Proofs/Exceptions.lean ====
section
/-! PROOF. The four errors: an illegal header, a rejected UPDATE, a FINAL whose check fails, and the state each of them
leaves (spec/60_exceptions.md R181 to R188). -/

namespace Sys2Proof.Machine

/-! ## Illegal headers -/

/-- R45, R61: a header travels high byte first. -/
theorem toNat_headerOfBytes (b0 b1 : Byte) : (headerOfBytes b0 b1).toNat = 256 * b0.toNat + b1.toNat := by
  rw [headerOfBytes, toNat_append_eq_mul_add]
  omega

theorem opField_eq_iff (hdr : Header) (op : BitVec 2) : opField hdr = op ↔ hdr.toNat / 2 ^ 14 = op.toNat := by
  rw [← toNat_opField, BitVec.toNat_inj]

/-- R67: the header of INIT, those of UPDATE and the header of FINAL leave three ranges in which none decodes to a
command. -/
theorem decodeHeader_illegal {hdr : Header}
    (h : hdr.toNat < 0x4000 ∨ (0x4000 < hdr.toNat ∧ hdr.toNat < 0x8000) ∨ 0xC000 < hdr.toNat) (rest : List Byte) :
    decodeHeader hdr rest = .illegal hdr rest := by
  have hinit : ¬ (opField hdr = 0b01#2 ∧ lenField hdr = 0) := by
    rw [opField_eq_iff, lenField_eq_mod, BitVec.toNat_ofNat]
    omega
  have hfinal : ¬ (opField hdr = 0b11#2 ∧ lenField hdr = 0) := by
    rw [opField_eq_iff, lenField_eq_mod, BitVec.toNat_ofNat]
    omega
  have hupdate : ¬ opField hdr = 0b10#2 := by
    rw [opField_eq_iff, BitVec.toNat_ofNat]
    omega
  rw [decodeHeader, if_neg hinit, if_neg hfinal, if_neg hupdate]

/-- Settles O27: the header decodes as illegal, and the step raises error 1 with the two bytes consumed. -/
theorem illegalHeaderIsAnsweredWithAnError : Obligations.IllegalHeaderIsAnsweredWithAnError := by
  intro s b0 b1 rest hcmd hrange
  rw [← toNat_headerOfBytes] at hrange
  have hdec : decode s.cmdIn = .illegal (headerOfBytes b0 b1) rest := by
    rw [hcmd, decode_cons_cons, decodeHeader_illegal hrange]
  exact step_illegal hdec

/-! ## A rejected UPDATE -/

theorem padInvariantBroken_eq_false_iff (s : State) : padInvariantBroken s = false ↔ s.bitlen.toNat % 512 = 0 := by
  rw [← Bool.not_eq_true, padInvariantBroken_iff, not_not]

/-- Settles O25: the UPDATE decodes whole, so its payload is consumed, and the guard that rejects it comes before any
write; a FINAL then finds `DONE`, `BITLEN` and `H` as they were. -/
theorem rejectedUpdateDiscardsItsPayload : Obligations.RejectedUpdateDiscardsItsPayload := by
  intro s data rest hlen hcmd
  have hstep : step s = exec (.update data) (consume rest s) :=
    step_command (by rw [hcmd, decode_encode_update hlen])
  refine ⟨fun hdone => ⟨?afterFinal, fun hwhole => ?laterFinal⟩, fun hdone hover => ?overflow⟩
  case afterFinal => exact hstep.trans (exec_update_finalized (s := consume rest s) hdone data)
  case laterFinal =>
    have hcheck : padInvariantBroken { s with cmdIn := rest, respOut := s.respOut ++ [0x82] } = false :=
      (padInvariantBroken_eq_false_iff _).2 hwhole
    exact exec_final_finalized hdone hcheck
  case overflow =>
    exact hstep.trans (exec_update_overflow (s := consume rest s) hdone ((lengthOverflows_iff _ _).2 hover))

/-! ## The state an error leaves -/

/-- R188: the state that an error leaves, but for its response, by the state in which the command ran. -/
def stateAtError (e : ErrorCode) (s : State) : State := if e = .padInvariant then padOnce s else s

theorem stateAtError_padInvariant (s : State) : stateAtError .padInvariant s = padOnce s := rfl

theorem stateAtError_of_ne {e : ErrorCode} (h : e ≠ .padInvariant) (s : State) : stateAtError e s = s := if_neg h

/-- R187, R188: every command ends with one response, and an error stops it before the next write: UPDATE at one of its
two guards, before any write, and FINAL at its check, after the padding. -/
theorem exec_answers (i : Instr) (s : State) :
    ∃ r u, exec i s = .next (respond r u) ∧ u.respOut = s.respOut ∧ ∀ e, r = .err e → u = stateAtError e s := by
  cases i with
  | init => exact ⟨.ok, initialise s, exec_init s, initialise_respOut s, nofun⟩
  | update data =>
    cases hd : s.done with
    | true => exact ⟨.err .updateAfterFinal, s, exec_update_finalized hd data, rfl, by rintro _ ⟨⟩; rfl⟩
    | false =>
      cases ho : lengthOverflows s data.length with
      | true => exact ⟨.err .lenOverflow, s, exec_update_overflow hd ho, rfl, by rintro _ ⟨⟩; rfl⟩
      | false => exact ⟨.ok, absorb data s, exec_update_accepted hd ho, absorb_respOut data s, nofun⟩
  | final =>
    cases hb : padInvariantBroken (padOnce s) with
    | true => exact ⟨.err .padInvariant, padOnce s, exec_final_broken hb, padOnce_respOut s, by rintro _ ⟨⟩; rfl⟩
    | false => exact ⟨.digest (digestOf (padOnce s).hash), padOnce s, exec_final_digest hb, padOnce_respOut s, nofun⟩

theorem exec_answered_error {i : Instr} {s t : State} {e : ErrorCode} (h : exec i s = .next t)
    (hresp : t.respOut = s.respOut ++ encodeResponse (.err e)) : t = raiseError e (stateAtError e s) := by
  obtain ⟨r, u, hexec, hu, herr⟩ := exec_answers i s
  cases h.symm.trans hexec
  obtain rfl : r = .err e := response_of_respOut hu hresp
  rw [herr e rfl, raiseError]

/-- A step that answers an error consumed the bytes of one command and left the state of that error. -/
theorem step_answered_error {s t : State} {e : ErrorCode} (h : step s = .next t)
    (hresp : t.respOut = s.respOut ++ encodeResponse (.err e)) :
    ∃ rest, t = raiseError e (stateAtError e (consume rest s)) := by
  obtain ⟨-, rfl⟩ | ⟨hdr, rest, -, rfl⟩ | ⟨i, rest, -, hexec⟩ := step_cases h
  · simp [encodeResponse] at hresp
  · cases response_of_respOut (consume_respOut rest s) hresp
    exact ⟨rest, rfl⟩
  · exact ⟨rest, exec_answered_error hexec hresp⟩

/-- Settles O28, from the state that each error leaves. -/
theorem errorsArePrecise : Obligations.ErrorsArePrecise := by
  intro s t e h hresp
  obtain ⟨rest, rfl⟩ := step_answered_error h hresp
  refine ⟨fun hne => ?precise, ?padded⟩
  case precise =>
    rw [stateAtError_of_ne hne]
    rfl
  case padded =>
    rintro rfl
    have hcmd : (raiseError .padInvariant (padOnce (consume rest s))).cmdIn = rest := by simp
    rw [stateAtError_padInvariant, hcmd]
    rfl

/-! ## After a FINAL whose check failed -/

/-- R143, R184: FINAL answers `0x84` exactly when the padded state fails the check. -/
theorem exec_final_answers_padInvariant_iff {s t : State} (h : exec .final s = .next t) :
    (padOnce s).bitlen.toNat % 512 ≠ 0 ↔ t.respOut = s.respOut ++ encodeResponse (.err .padInvariant) := by
  rw [← padInvariantBroken_iff]
  constructor
  · intro hb
    rw [exec_final_broken hb] at h
    cases h
    rw [raiseError_respOut, padOnce_respOut]
  · intro hresp
    by_contra hb
    rw [exec_final_digest (Bool.eq_false_iff.2 hb)] at h
    cases h
    cases response_of_respOut (padOnce_respOut s) hresp

/-- In a FINALIZED state that fails the check, FINAL answers the error again and writes nothing else. -/
theorem exec_final_finalized_broken {t : State} (hdone : t.done = true) (hb : padInvariantBroken t = true) :
    exec .final t = .next (raiseError .padInvariant t) := by
  have hpad : padOnce t = t := padOnce_of_done hdone
  rw [exec_final_broken (by rwa [hpad]), hpad]

/-- Settles O26: the state after the error is FINALIZED and fails the check still, so FINAL and UPDATE are answered with
errors that write nothing, and INIT works in every state. -/
theorem padErrorLeavesADeadEngine : Obligations.PadErrorLeavesADeadEngine := by
  intro s t h
  have hiff := exec_final_answers_padInvariant_iff h
  refine ⟨hiff, fun hresp => ?_⟩
  have hb : padInvariantBroken (padOnce s) = true := (padInvariantBroken_iff _).2 (hiff.2 hresp)
  have hdone : t.done = true := exec_final_done h
  obtain rfl : t = raiseError .padInvariant (padOnce s) := exec_answered_error h hresp
  exact ⟨respond_padOnce _ s, hdone, exec_final_finalized_broken hdone hb,
    fun data => exec_update_finalized hdone data, _, exec_init _, rfl, rfl, rfl⟩

end Sys2Proof.Machine
end

