-- ==== Sys2Proof/Proofs/CommandStream.lean ====
section
/-! PROOF. Decoder and encoder agree, and a step takes one command off the stream and answers it once
(spec/30_encoding.md R61 to R70, spec/00_scope.md R8). -/

namespace Sys2Proof.Machine

/-! ## Encoding and decoding -/

theorem headerHigh_headerOfBytes (b0 b1 : Byte) : headerHigh (headerOfBytes b0 b1) = b0 :=
  BitVec.extractLsb'_append_eq_left

theorem headerLow_headerOfBytes (b0 b1 : Byte) : headerLow (headerOfBytes b0 b1) = b1 :=
  BitVec.extractLsb'_append_eq_right

/-- Two bytes that form a command's header are the first two of its encoding. -/
theorem eq_encode_append {b0 b1 : Byte} {i : Instr} (h : headerOfBytes b0 b1 = encodeHeader i) (rest : List Byte) :
    b0 :: b1 :: (payload i ++ rest) = encode i ++ rest := by
  rw [encode, ← h, headerHigh_headerOfBytes, headerLow_headerOfBytes]
  rfl

theorem opField_mkHeader (op : BitVec 2) (len : Nat) : opField (mkHeader op len) = op :=
  BitVec.extractLsb'_append_eq_left

theorem lenField_mkHeader (op : BitVec 2) {len : Nat} (h : len < 2 ^ 14) : lenField (mkHeader op len) = len := by
  rw [lenField_eq_mod, toNat_mkHeader op h, Nat.mul_add_mod_self_right, Nat.mod_eq_of_lt h]

/-- R61: a header is made of its two fields. -/
theorem eq_mkHeader_of_fields {hdr : Header} {op : BitVec 2} {len : Nat} (hop : opField hdr = op)
    (hlen : lenField hdr = len) : hdr = mkHeader op len := by
  have hlt : len < 2 ^ 14 := hlen ▸ (hdr.extractLsb' 0 14).isLt
  exact (header_eq_iff _ _).2 ⟨by rw [hop, opField_mkHeader], by rw [hlen, lenField_mkHeader op hlt]⟩

/-- R66, R67: a header that decodes to a command is the header of that command, which is well formed, and the command's
payload is what the decoder took off the stream. -/
theorem eq_encodeHeader_of_decodeHeader {hdr : Header} {bytes rest : List Byte} {i : Instr}
    (h : decodeHeader hdr bytes = .command i rest) :
    i.wf = true ∧ hdr = encodeHeader i ∧ bytes = payload i ++ rest := by
  unfold decodeHeader at h
  split_ifs at h with hinit hfinal hop hshort <;> cases h
  · exact ⟨rfl, eq_mkHeader_of_fields hinit.1 hinit.2, rfl⟩
  · exact ⟨rfl, eq_mkHeader_of_fields hfinal.1 hfinal.2, rfl⟩
  · have hlen : (bytes.take (lenField hdr)).length = lenField hdr := List.length_take_of_le (by omega)
    refine ⟨?_, eq_mkHeader_of_fields hop hlen.symm, (List.take_append_drop _ _).symm⟩
    have hlt : lenField hdr < 2 ^ 14 := (hdr.extractLsb' 0 14).isLt
    rw [Instr.wf, decide_eq_true_iff, hlen, Config.maxChunk]
    omega

theorem decode_encode {i : Instr} (h : i.wf = true) (rest : List Byte) :
    decode (encode i ++ rest) = .command i rest := by
  cases i with
  | init => rw [decode_encode_append]; rfl
  | update data => exact decode_encode_update (of_decide_eq_true h) rest
  | final => exact decode_encode_final rest

/-- Settles O30: an encoded command is read back, and what decodes to a command has its header and its payload. -/
theorem decodeAndEncodeAgree : Obligations.DecodeAndEncodeAgree := by
  intro bytes i rest
  constructor
  case mpr => rintro ⟨hwf, rfl⟩; exact decode_encode hwf rest
  case mp =>
    intro h
    match bytes, h with
    | b0 :: b1 :: bytes, h =>
      obtain ⟨hwf, hhdr, rfl⟩ := eq_encodeHeader_of_decodeHeader h
      exact ⟨hwf, eq_encode_append hhdr rest⟩

/-- R67: an illegal header is the first two bytes of the stream, and selects no row of the opcode table. -/
theorem eq_cons_cons_of_illegal {bytes rest : List Byte} {hdr : Header} (h : decode bytes = .illegal hdr rest) :
    ∃ b0 b1, bytes = b0 :: b1 :: rest ∧ headerOfBytes b0 b1 = hdr ∧ ∀ r ∈ opRows, r.selects hdr = false := by
  match bytes, h with
  | b0 :: b1 :: bytes, h =>
    rw [decode_cons_cons] at h
    obtain ⟨i, rest', hcmd, -⟩ | ⟨hinc, -⟩ | ⟨hill, hnone⟩ := decodeHeader_cases (headerOfBytes b0 b1) bytes
    · cases h.symm.trans hcmd
    · cases h.symm.trans hinc
    · cases h.symm.trans hill
      exact ⟨b0, b1, rfl, rfl, hnone⟩

/-! ## The header as a number -/

theorem decodeHeader_init {hdr : Header} (h : hdr.toNat = 0x4000) (rest : List Byte) :
    decodeHeader hdr rest = .command .init rest := by
  obtain rfl : hdr = 0x4000 := BitVec.eq_of_toNat_eq h
  rfl

theorem decodeHeader_final {hdr : Header} (h : hdr.toNat = 0xC000) (rest : List Byte) :
    decodeHeader hdr rest = .command .final rest := by
  obtain rfl : hdr = 0xC000 := BitVec.eq_of_toNat_eq h
  rfl

theorem decodeHeader_update {hdr : Header} (hlow : 0x8000 ≤ hdr.toNat) (hhigh : hdr.toNat < 0xC000)
    (rest : List Byte) :
    decodeHeader hdr rest =
      if rest.length < hdr.toNat - 0x8000 then .incomplete
      else .command (.update (rest.take (hdr.toNat - 0x8000))) (rest.drop (hdr.toNat - 0x8000)) := by
  have hop : opField hdr = 0b10#2 := by
    rw [opField_eq_iff, BitVec.toNat_ofNat]
    omega
  have hlen : lenField hdr = hdr.toNat - 0x8000 := by
    rw [lenField_eq_mod]
    omega
  have hinit : ¬ (opField hdr = 0b01#2 ∧ lenField hdr = 0) := by simp [hop]
  have hfinal : ¬ (opField hdr = 0b11#2 ∧ lenField hdr = 0) := by simp [hop]
  rw [decodeHeader, if_neg hinit, if_neg hfinal, if_pos hop, hlen]

/-- Settles O29: the four kinds of header, each by its number, and the two steps on a stream without a command. -/
theorem decodingFollowsTheHeader : Obligations.DecodingFollowsTheHeader := by
  refine ⟨decode_nil, decode_singleton, fun b0 b1 rest => ?_, fun s => step_incomplete, fun s hdr rest => step_illegal⟩
  rw [← toNat_headerOfBytes, decode_cons_cons, BitVec.ofNat_toNat, BitVec.setWidth_eq]
  exact ⟨fun h => decodeHeader_init h rest, fun h => decodeHeader_final h rest,
    fun hlow hhigh => decodeHeader_update hlow hhigh rest, fun h => decodeHeader_illegal h rest⟩

/-- Settles O32: the words evaluate to their commands. -/
theorem tableWordsDecode : Obligations.TableWordsDecode := by
  unfold Obligations.TableWordsDecode
  decide

/-- Settles O33: reading back is `decodeResponse_encodeResponse`, and the status bytes are those of R70. -/
theorem responsesCanBeReadBack : Obligations.ResponsesCanBeReadBack :=
  ⟨decodeResponse_encodeResponse, rfl, fun _ => rfl, rfl, rfl, rfl, rfl⟩

/-! ## The step -/

/-- Settles O35: the decoder finds the command, by hypothesis or because it reads back what was encoded. -/
theorem stepRunsTheDecodedCommand : Obligations.StepRunsTheDecodedCommand :=
  fun _ _ rest => ⟨step_command, fun hwf hcmd => step_command (by rw [hcmd, decode_encode hwf rest])⟩

/-- The state a command leaves, but for its response: a rejected command writes nothing, and each of the three has one
way to write. -/
inductive CommandEffect : Instr → State → State → Prop where
  | none (i : Instr) (s : State) : CommandEffect i s s
  | initialised (s : State) : CommandEffect .init s (initialise s)
  | absorbed {s : State} {data : List Byte} (hdone : s.done = false)
      (hfits : s.bitlen.toNat + 8 * data.length < 2 ^ 64) : CommandEffect (.update data) s (absorb data s)
  | padded (s : State) : CommandEffect .final s (padOnce s)

/-- Everything a command can do: one of the effects, and one response (R160 to R162). -/
theorem exec_cases {i : Instr} {s t : State} (h : exec i s = .next t) :
    ∃ r u, t = respond r u ∧ CommandEffect i s u := by
  cases i with
  | init =>
    cases h
    exact ⟨.ok, _, rfl, .initialised s⟩
  | update data =>
    cases hd : s.done with
    | true =>
      rw [exec_update_finalized hd] at h
      cases h
      exact ⟨.err .updateAfterFinal, s, rfl, .none _ s⟩
    | false =>
      by_cases hfits : s.bitlen.toNat + 8 * data.length < 2 ^ 64
      · rw [exec_update_of_fits hd hfits] at h
        cases h
        exact ⟨.ok, _, rfl, .absorbed hd hfits⟩
      · rw [exec_update_overflow hd ((lengthOverflows_iff s _).2 (not_lt.1 hfits))] at h
        cases h
        exact ⟨.err .lenOverflow, s, rfl, .none _ s⟩
  | final =>
    rw [exec_final] at h
    cases h
    split_ifs
    · exact ⟨.err .padInvariant, _, rfl, .padded s⟩
    · exact ⟨.digest _, _, rfl, .padded s⟩

/-- R66: a command runs with its bytes already consumed, and consumes no more. -/
theorem exec_cmdIn {i : Instr} {s t : State} (h : exec i s = .next t) : t.cmdIn = s.cmdIn := by
  obtain ⟨r, u, rfl, heffect⟩ := exec_cases h
  cases heffect <;> simp

/-- Settles O36: an illegal header is two bytes and a command at least its header, and both are answered once. -/
theorem everyStepAnswersOnce : Obligations.EveryStepAnswersOnce := by
  intro s
  cases hdec : decode s.cmdIn with
  | incomplete => exact ⟨s, step_incomplete hdec, .inl ⟨rfl, rfl⟩⟩
  | illegal hdr rest =>
    obtain ⟨b0, b1, hcmd, -⟩ := eq_cons_cons_of_illegal hdec
    exact ⟨_, step_illegal hdec, .inr ⟨nofun, .err .illegalCmd, [b0, b1], le_rfl, hcmd, rfl⟩⟩
  | command i rest =>
    obtain ⟨-, hcmd⟩ := (decodeAndEncodeAgree _ _ _).1 hdec
    obtain ⟨r, u, hexec, hu, -⟩ := exec_answers i (consume rest s)
    refine ⟨_, (step_command hdec).trans hexec, .inr ⟨nofun, r, encode i, by simp [encode], ?_, ?_⟩⟩
    · rw [exec_cmdIn hexec, hcmd, consume_cmdIn]
    · rw [respond_respOut, hu, consume_respOut]

end Sys2Proof.Machine
end

