-- ==== Sys2Proof/Proofs/ByteSerial.lean ====
section
/-! PROOF. ABSORB byte by byte: every chunk is inserted as its bytes one after another, and what ABSORB does to the cursor,
the hash state and the bytes of the buffer is an induction over them (spec/42_streaming_buffer.md R121 to R128,
spec/20_memory.md R47). -/

namespace Sys2Proof.Machine

/-! ## The buffer's bytes and words after a write (R47) -/

theorem bufByte_bufXorByte {w l : Nat} (hw : w < 16) (hl : l < 4) (b : Byte) (s : State) (p : Nat) :
    bufByte (bufXorByte w l b s).buf p = if p = 4 * w + l then bufByte s.buf p ^^^ b else bufByte s.buf p := by
  rw [bufXorByte_buf, bufByte, bufByte]
  obtain rfl | hne := eq_or_ne w (p / 4)
  · rw [readWord_writeWord_same _ hw, lane_xor]
    split_ifs with hp
    · have hlane : p % 4 = l := by omega
      rw [hlane, lane_byteInLane_same b hl]
    · rw [lane_byteInLane_other b hl (Nat.mod_lt p (by decide)) (by omega)]
      exact BitVec.xor_zero
  · rw [readWord_writeWord_other _ hne, if_neg (by omega)]

theorem bufByte_bufSetWord {w : Nat} (hw : w < 16) (v : Word) (s : State) (p : Nat) :
    bufByte (bufSetWord w v s).buf p = if p / 4 = w then lane v (p % 4) else bufByte s.buf p := by
  rw [bufSetWord_buf, bufByte, bufByte]
  split_ifs with hp
  · rw [hp, readWord_writeWord_same _ hw]
  · rw [readWord_writeWord_other _ (Ne.symm hp)]

/-- Writing a word's own value changes nothing. -/
theorem bufSetWord_readWord {w : Nat} {v : Word} {s : State} (h : readWord s.buf w = v) : bufSetWord w v s = s := by
  have hbuf : writeWord s.buf w v = s.buf := by
    refine eq_of_readWord_eq fun i hi => ?_
    obtain rfl | hne := eq_or_ne w i
    · rw [readWord_writeWord_same _ hi, h]
    · exact readWord_writeWord_other _ hne _
  rw [bufSetWord, hbuf]

/-- Settles O10, from the byte view after the exclusive-or and the two array rules. -/
theorem bufferPrimitivesWriteOnePlace : Obligations.BufferPrimitivesWriteOnePlace := by
  refine ⟨fun s w l b hw hl => ⟨fun p _ => bufByte_bufXorByte hw hl b s p, rfl⟩, fun s w v hw => ⟨fun i _ => ?_, rfl⟩⟩
  rw [bufSetWord_buf]
  split_ifs with hi
  · rw [hi, readWord_writeWord_same _ hw]
  · rw [readWord_writeWord_other _ (Ne.symm hi)]

/-! ## The cursor as one position -/

theorem blockPosition_lt (s : State) : blockPosition s < 64 := by
  rw [blockPosition]
  omega

theorem cursorWord_eq (s : State) : cursorWord s = blockPosition s / 4 := by
  rw [cursorWord, blockPosition]
  omega

theorem cursorLane_eq (s : State) : cursorLane s = blockPosition s % 4 := by
  rw [cursorLane, blockPosition]
  omega

/-- The position moves with the counter, even where that wraps, since 512 divides 2^64. -/
theorem blockPosition_of_bitlen {s t : State} {n : Nat} (h : t.bitlen = s.bitlen + BitVec.ofNat 64 (8 * n)) :
    blockPosition t = (blockPosition s + n) % 64 := by
  rw [blockPosition, blockPosition, h, BitVec.toNat_add, BitVec.toNat_ofNat]
  omega

theorem blockPosition_absorb (data : List Byte) (s : State) :
    blockPosition (absorb data s) = (blockPosition s + data.length) % 64 :=
  blockPosition_of_bitlen (absorb_bitlen data s)

/-! ## Inserting bytes at a position -/

/-- ABSORB1 but for the counter, at byte position `p` of the block (R128). -/
def insertByte (p : Nat) (b : Byte) (s : State) : State :=
  if p % 4 = 3 then
    if p = 63 then bufSetWord 0 0 (compress (bufXorByte (p / 4) (p % 4) b s))
    else bufSetWord (p / 4 + 1) 0 (bufXorByte (p / 4) (p % 4) b s)
  else bufXorByte (p / 4) (p % 4) b s

/-- The bytes of a chunk one after another, from position `p` of the block on. -/
def insertBytes : Nat → List Byte → State → State
  | _, [], s => s
  | p, b :: rest, s => insertBytes ((p + 1) % 64) rest (insertByte p b s)

/-- Everything the insertion of a byte can do: it stays in its word, completes the word, or completes the block. -/
theorem insertByte_cases (p : Nat) (b : Byte) (s : State) :
    (p % 4 ≠ 3 ∧ insertByte p b s = bufXorByte (p / 4) (p % 4) b s) ∨
      (p % 4 = 3 ∧ p ≠ 63 ∧ insertByte p b s = bufSetWord (p / 4 + 1) 0 (bufXorByte (p / 4) (p % 4) b s)) ∨
      (p = 63 ∧ insertByte p b s = bufSetWord 0 0 (compress (bufXorByte 15 3 b s))) := by
  unfold insertByte
  split_ifs with hlane hlast
  · subst hlast
    exact .inr (.inr ⟨rfl, rfl⟩)
  · exact .inr (.inl ⟨hlane, hlast, rfl⟩)
  · exact .inl ⟨hlane, rfl⟩

theorem insertBytes_append {p : Nat} (hp : p < 64) (first second : List Byte) (s : State) :
    insertBytes p (first ++ second) s =
      insertBytes ((p + first.length) % 64) second (insertBytes p first s) := by
  induction first generalizing p s with
  | nil => rw [List.nil_append, List.length_nil, Nat.add_zero, Nat.mod_eq_of_lt hp, insertBytes]
  | cons b rest ih =>
    have hend : ((p + 1) % 64 + rest.length) % 64 = (p + (b :: rest).length) % 64 := by
      rw [List.length_cons]
      omega
    rw [List.cons_append, insertBytes, ih (Nat.mod_lt _ (by decide)), hend, insertBytes]

/-! ## Updates that ABSORB's writes do not see -/

/-- An update of the state that each of ABSORB's writes commutes with: one outside `H`, `BUF` and the scratch. -/
structure CommutesWithWrites (f : State → State) : Prop where
  bufXorByte : ∀ w l b s, bufXorByte w l b (f s) = f (bufXorByte w l b s)
  bufSetWord : ∀ w v s, bufSetWord w v (f s) = f (bufSetWord w v s)
  compress : ∀ s, compress (f s) = f (compress s)

theorem advanceBitlen_commutes (n : Nat) : CommutesWithWrites (advanceBitlen n) :=
  ⟨fun _ _ _ _ => rfl, fun _ _ _ => rfl, fun s => by rw [compress_spec, compress_spec]; rfl⟩

theorem hostSend_commutes (bytes : List Byte) : CommutesWithWrites (hostSend bytes) :=
  ⟨fun _ _ _ _ => rfl, fun _ _ _ => rfl, fun s => by rw [compress_spec, compress_spec]; rfl⟩

theorem respond_commutes (r : Response) : CommutesWithWrites (respond r) :=
  ⟨fun _ _ _ _ => rfl, fun _ _ _ => rfl, fun s => by rw [compress_spec, compress_spec]; rfl⟩

theorem insertByte_comm {f : State → State} (hf : CommutesWithWrites f) (p : Nat) (b : Byte) (s : State) :
    insertByte p b (f s) = f (insertByte p b s) := by
  unfold insertByte
  split_ifs <;> simp only [hf.bufXorByte, hf.bufSetWord, hf.compress]

theorem insertBytes_comm {f : State → State} (hf : CommutesWithWrites f) (p : Nat) (data : List Byte) (s : State) :
    insertBytes p data (f s) = f (insertBytes p data s) := by
  induction data generalizing p s with
  | nil => rfl
  | cons b rest ih => rw [insertBytes, insertByte_comm hf, ih, insertBytes]

/-! ## ABSORB1 -/

theorem insertByte_outside (p : Nat) (b : Byte) (s : State) : OutsideAbsorb s (insertByte p b s) := by
  obtain ⟨-, h⟩ | ⟨-, -, h⟩ | ⟨-, h⟩ := insertByte_cases p b s <;> rw [h] <;>
    exact ⟨by simp, by simp, by simp, by simp⟩

theorem absorb1_eq (s : State) (b : Byte) : absorb1 s b = advanceBitlen 1 (insertByte (blockPosition s) b s) := by
  have hcomm := advanceBitlen_commutes 1
  simp only [absorb1, cursorWord_eq, cursorLane_eq]
  obtain ⟨hlane, h⟩ | ⟨hlane, hinside, h⟩ | ⟨hlast, h⟩ := insertByte_cases (blockPosition s) b s <;> rw [h]
  · rw [if_neg hlane]
  · rw [if_pos hlane, if_neg (by omega), hcomm.bufSetWord]
  · rw [hlast, if_pos rfl, if_pos rfl, hcomm.compress, hcomm.bufSetWord]

theorem advanceBitlen_add (m n : Nat) (s : State) :
    advanceBitlen m (advanceBitlen n s) = advanceBitlen (n + m) s := by
  simp only [advanceBitlen, BitVec.add_assoc, ← BitVec.ofNat_add, Nat.mul_add]

theorem blockPosition_absorb1 (s : State) (b : Byte) : blockPosition (absorb1 s b) = (blockPosition s + 1) % 64 := by
  refine blockPosition_of_bitlen ?_
  rw [absorb1_eq, advanceBitlen_bitlen, (insertByte_outside _ _ _).bitlen]

/-- The byte-serial reading inserts the bytes and advances the counter by their number. -/
theorem foldl_absorb1 (data : List Byte) (s : State) :
    data.foldl absorb1 s = advanceBitlen data.length (insertBytes (blockPosition s) data s) := by
  induction data generalizing s with
  | nil => simp [insertBytes, advanceBitlen]
  | cons b rest ih =>
    rw [List.foldl_cons, ih, blockPosition_absorb1, absorb1_eq, insertBytes_comm (advanceBitlen_commutes 1),
      advanceBitlen_add, insertBytes, List.length_cons, Nat.add_comm]

/-! ## ABSORB as insertions -/

/-- What `wordCompleted` leads to: the word that the cursor has moved to is set to zero before its first byte (R122). -/
def openNext (next : Nat × State) : State := bufSetWord next.1 0 next.2

theorem openNext_wordCompleted {w : Nat} (hw : w < 16) (b : Byte) (s : State) :
    openNext (wordCompleted w (bufXorByte w 3 b s)) = insertByte (4 * w + 3) b s := by
  have hword : (4 * w + 3) / 4 = w := by omega
  have hlane : (4 * w + 3) % 4 = 3 := by omega
  obtain ⟨hend, h⟩ | ⟨hend, h⟩ := wordCompleted_cases w (bufXorByte w 3 b s)
  · obtain rfl : w = 15 := by omega
    rw [h]
    rfl
  · rw [h, insertByte, if_pos hlane, if_neg (by omega), hword, hlane]
    rfl

theorem wordCompleted_fst {w : Nat} (hw : w < 16) (s : State) : (wordCompleted w s).1 = (w + 1) % 16 := by
  obtain ⟨hend, h⟩ | ⟨hend, h⟩ := wordCompleted_cases w s <;> rw [h] <;> omega

theorem insertByte_inside {w l : Nat} (hl : l < 3) (b : Byte) (s : State) :
    insertByte (4 * w + l) b s = bufXorByte w l b s := by
  have hword : (4 * w + l) / 4 = w := by omega
  have hlane : (4 * w + l) % 4 = l := by omega
  rw [insertByte, hword, hlane, if_neg (by omega)]

/-- The insertions of steps 3 and 7 that leave their word incomplete. -/
theorem xorBytes_eq_insertBytes {w l : Nat} (hw : w < 16) {data : List Byte} (h : l + data.length < 4) (s : State) :
    xorBytes w l data s = insertBytes (4 * w + l) data s := by
  induction data generalizing l s with
  | nil => rfl
  | cons b rest ih =>
    rw [List.length_cons] at h
    have hnext : (4 * w + l + 1) % 64 = 4 * w + (l + 1) := by omega
    rw [xorBytes_cons, ih (by omega), insertBytes, insertByte_inside (by omega), hnext]

/-- The insertions of step 3 that complete their word. -/
theorem openNext_xorBytes {w l : Nat} (hw : w < 16) (hl : l < 4) {data : List Byte} (h : l + data.length = 4)
    (s : State) : openNext (wordCompleted w (xorBytes w l data s)) = insertBytes (4 * w + l) data s := by
  induction data generalizing l s with
  | nil => rw [List.length_nil] at h; omega
  | cons b rest ih =>
    rw [List.length_cons] at h
    obtain rfl | hrest := eq_or_ne rest []
    · obtain rfl : l = 3 := by simpa using h
      exact openNext_wordCompleted hw b s
    · have hpos := List.length_pos_of_ne_nil hrest
      have hnext : (4 * w + l + 1) % 64 = 4 * w + (l + 1) := by omega
      rw [xorBytes_cons, ih (by omega) (by omega), insertBytes, insertByte_inside (by omega), hnext]

/-- R122, R125: steps 6 and 7 of ABSORB are insertions into a word of zeros. -/
theorem absorbWords_eq_insertBytes {w : Nat} (hw : w < 16) (data : List Byte) (s : State) :
    absorbWords data w s = insertBytes (4 * w) data (bufSetWord w 0 s) := by
  induction data, w, s using absorbWords.induct with
  | case1 b0 b1 b2 b3 rest w s ih =>
    rw [bufSetWord_wordBE hw] at ih
    have hnext := wordCompleted_fst hw (xorBytes w 0 [b0, b1, b2, b3] (bufSetWord w 0 s))
    have hend : (4 * w + 4) % 64 = 4 * ((w + 1) % 16) := by omega
    have hquartet := openNext_xorBytes hw (by decide) (l := 0) (data := [b0, b1, b2, b3]) rfl (bufSetWord w 0 s)
    rw [openNext, hnext] at hquartet
    rw [absorbWords, bufSetWord_wordBE hw, ih (by omega), hnext, hquartet]
    have happend := insertBytes_append (by omega) [b0, b1, b2, b3] rest (bufSetWord w 0 s) (p := 4 * w)
    exact (happend.trans (congrArg (insertBytes · rest _) hend)).symm
  | case2 left w s hleft =>
    have hlen := length_lt_four_of_no_quartet hleft
    rw [absorbWords.eq_2 _ _ _ hleft]
    exact xorBytes_eq_insertBytes hw (by omega) _

/-- At the start of a word ABSORB sets that word to zero before the first byte (R125). -/
def openCursorWord (s : State) : State := if cursorLane s = 0 then bufSetWord (cursorWord s) 0 s else s

theorem openCursorWord_cases (s : State) :
    (cursorLane s = 0 ∧ openCursorWord s = bufSetWord (cursorWord s) 0 s) ∨
      (cursorLane s ≠ 0 ∧ openCursorWord s = s) := by
  unfold openCursorWord
  split_ifs with h
  · exact .inl ⟨h, rfl⟩
  · exact .inr ⟨h, rfl⟩

/-- The three ways to go on from step 5, for the chunk's bytes after the head has been inserted. -/
theorem absorbBody_eq_insertBytes {w l : Nat} (hw : w < 16) (hl : l < 4) (data : List Byte) (s : State) :
    absorbBody w ((4 - l) % 4) data (xorBytes w l (data.take ((4 - l) % 4)) s) =
      insertBytes (4 * w + l) data (if l = 0 then bufSetWord w 0 s else s) := by
  unfold absorbBody
  obtain rfl | hpos := Nat.eq_zero_or_pos l
  · exact absorbWords_eq_insertBytes hw data s
  · rw [if_neg hpos.ne']
    split_ifs with hshort hhead
    · rw [List.take_of_length_le hshort.le]
      exact xorBytes_eq_insertBytes hw (by omega) s
    · have hfull : l + (data.take ((4 - l) % 4)).length = 4 := by rw [List.length_take]; omega
      have hword := openNext_xorBytes hw hl hfull s
      have hnext := wordCompleted_fst hw (xorBytes w l (data.take ((4 - l) % 4)) s)
      have hend : (4 * w + l + (data.take ((4 - l) % 4)).length) % 64 = 4 * ((w + 1) % 16) := by omega
      rw [openNext, hnext] at hword
      rw [absorbWords_eq_insertBytes (by omega), hnext, hword, ← hend, ← insertBytes_append (by omega),
        List.take_append_drop]
    · omega

/-- ABSORB in every state: its bytes are inserted one after another, and the counter advances by their number. -/
theorem absorb_eq_insertBytes {data : List Byte} (h : data ≠ []) (s : State) :
    absorb data s = advanceBitlen data.length (insertBytes (blockPosition s) data (openCursorWord s)) := by
  have hw : cursorWord s < 16 := by rw [cursorWord]; omega
  have hl : cursorLane s < 4 := by rw [cursorLane]; omega
  have hpos : 4 * cursorWord s + cursorLane s = blockPosition s := by
    rw [cursorWord_eq, cursorLane_eq]
    omega
  rw [absorb_of_ne_nil h, ← xorBytes_advanceBitlen, headNeeded, absorbBody_eq_insertBytes hw hl, hpos,
    ← insertBytes_comm (advanceBitlen_commutes _)]
  congr 1
  unfold openCursorWord
  split_ifs <;> rfl

/-- Where the lanes from the cursor on are zero, setting its word to zero before the first byte changes nothing. -/
theorem openCursorWord_of_lanesZero {s : State} (h : CursorLanesZero s) : openCursorWord s = s := by
  obtain ⟨hlane, heq⟩ | ⟨-, heq⟩ := openCursorWord_cases s <;> rw [heq]
  exact bufSetWord_readWord (eq_of_lane_eq fun l hl => by rw [h l hl (by omega), lane_zero])

/-- Settles O13: both sides insert the bytes one after another from the same position. -/
theorem absorbIsByteSerial : Obligations.AbsorbIsByteSerial := by
  intro s data h
  obtain rfl | hne := eq_or_ne data []
  · rfl
  · rw [absorb_eq_insertBytes hne, openCursorWord_of_lanesZero h, foldl_absorb1]

end Sys2Proof.Machine
end

