-- ==== Sys2Proof/Proofs/AbsorbedChunk.lean ====
section
/-! PROOF. What ABSORB of a chunk does to the cursor, the zero lanes, the hash state and the bytes of the buffer, each by
induction over the chunk's insertions (spec/42_streaming_buffer.md R123 to R127). -/

namespace Sys2Proof.Machine

/-! ## The zero lanes at the cursor (R125) -/

/-- From position `p` on, the lanes of the word at `p` are zero. -/
def LanesZeroFrom (p : Nat) (s : State) : Prop := ∀ l < 4, p % 4 ≤ l → lane (readWord s.buf (p / 4)) l = 0

theorem cursorLanesZero_iff (s : State) : CursorLanesZero s ↔ LanesZeroFrom (blockPosition s) s := by
  rw [CursorLanesZero, LanesZeroFrom, cursorWord_eq, cursorLane_eq]

theorem LanesZeroFrom.of_readWord {p : Nat} {s : State} (h : readWord s.buf (p / 4) = 0) : LanesZeroFrom p s :=
  fun l _ _ => by rw [h, lane_zero]

theorem LanesZeroFrom.bufByte {p q : Nat} {s : State} (h : LanesZeroFrom p s) (hq : q / 4 = p / 4) (hle : p ≤ q) :
    bufByte s.buf q = 0 := by
  rw [Machine.bufByte, hq]
  exact h _ (Nat.mod_lt q (by decide)) (by omega)

/-- A byte that completes a word moves the cursor to a word of zeros. -/
theorem readWord_insertByte_last {p : Nat} (hp : p < 64) (hlane : p % 4 = 3) (b : Byte) (s : State) :
    readWord (insertByte p b s).buf ((p + 1) % 64 / 4) = 0 := by
  obtain ⟨hne, -⟩ | ⟨-, hinside, heq⟩ | ⟨rfl, heq⟩ := insertByte_cases p b s
  · exact absurd hlane hne
  · have hnext : (p + 1) % 64 / 4 = p / 4 + 1 := by omega
    rw [heq, hnext, bufSetWord_buf, readWord_writeWord_same _ (by omega)]
  · rw [heq, bufSetWord_buf]
    exact readWord_writeWord_same _ (by decide) _

theorem insertByte_lanesZero {p : Nat} (hp : p < 64) {s : State} (h : LanesZeroFrom p s) (b : Byte) :
    LanesZeroFrom ((p + 1) % 64) (insertByte p b s) := by
  by_cases hlane : p % 4 = 3
  · exact .of_readWord (readWord_insertByte_last hp hlane b s)
  · intro l hl hle
    have hword : (p + 1) % 64 / 4 = p / 4 := by omega
    obtain ⟨-, heq⟩ | ⟨hlast, -⟩ | ⟨hlast, -⟩ := insertByte_cases p b s
    · rw [heq, hword, bufXorByte_buf, readWord_writeWord_same _ (by omega), lane_xor, h l hl (by omega),
        lane_byteInLane_other b (by omega) hl (by omega)]
      rfl
    · omega
    · omega

theorem insertBytes_lanesZero {p : Nat} (hp : p < 64) {s : State} (h : LanesZeroFrom p s) (data : List Byte) :
    LanesZeroFrom ((p + data.length) % 64) (insertBytes p data s) := by
  induction data generalizing p s with
  | nil => rwa [List.length_nil, Nat.add_zero, Nat.mod_eq_of_lt hp]
  | cons b rest ih =>
    have hend : ((p + 1) % 64 + rest.length) % 64 = (p + (b :: rest).length) % 64 := by
      rw [List.length_cons]
      omega
    rw [insertBytes, ← hend]
    exact ih (Nat.mod_lt _ (by decide)) (insertByte_lanesZero hp h b)

/-- Where the lanes at the cursor are zero, ABSORB is the insertions and the counter, for the empty chunk too. -/
theorem absorb_eq_of_lanesZero {s : State} (h : CursorLanesZero s) (data : List Byte) :
    absorb data s = advanceBitlen data.length (insertBytes (blockPosition s) data s) := by
  rw [absorbIsByteSerial s data h, foldl_absorb1]

theorem absorb_lanesZero {s : State} (h : CursorLanesZero s) (data : List Byte) : CursorLanesZero (absorb data s) := by
  rw [cursorLanesZero_iff, blockPosition_absorb, absorb_eq_of_lanesZero h]
  exact insertBytes_lanesZero (blockPosition_lt s) ((cursorLanesZero_iff s).1 h) data

/-- Settles O11: the counter wraps at 2^64, a multiple of the block, and the zero lanes are kept byte by byte. -/
theorem absorbMovesTheCursorByTheChunk : Obligations.AbsorbMovesTheCursorByTheChunk := by
  intro s data
  refine ⟨?counter, ?word, ?lane, fun h => absorb_lanesZero h data, absorb_done data s, absorb_cmdIn data s,
    absorb_respOut data s⟩
  case counter => rw [absorb_bitlen, BitVec.toNat_add, BitVec.toNat_ofNat, Nat.add_mod_mod]
  case word => rw [cursorWord_eq, blockPosition_absorb]
  case lane => rw [cursorLane_eq, blockPosition_absorb, Nat.mod_mod_of_dvd _ (by decide)]

/-! ## The hash state and the runs of COMPRESS (R126) -/

/-- An inserted byte runs COMPRESS exactly when it is the last of its block. -/
theorem insertByte_freeCount {p : Nat} (hp : p < 64) (b : Byte) (s : State) :
    (insertByte p b s).freeCount = s.freeCount + 72 * ((p + 1) / 64) := by
  obtain ⟨hlane, heq⟩ | ⟨-, hinside, heq⟩ | ⟨rfl, heq⟩ := insertByte_cases p b s
  · rw [heq, bufXorByte_freeCount, Nat.div_eq_of_lt (by omega), Nat.mul_zero, Nat.add_zero]
  · rw [heq, bufSetWord_freeCount, bufXorByte_freeCount, Nat.div_eq_of_lt (by omega), Nat.mul_zero, Nat.add_zero]
  · rw [heq, bufSetWord_freeCount, compress_freeCount, bufXorByte_freeCount, scratchWords]

theorem insertByte_hash {p : Nat} (hp : p < 63) (b : Byte) (s : State) : (insertByte p b s).hash = s.hash := by
  obtain ⟨-, heq⟩ | ⟨-, -, heq⟩ | ⟨rfl, -⟩ := insertByte_cases p b s
  · rw [heq, bufXorByte_hash]
  · rw [heq, bufSetWord_hash, bufXorByte_hash]
  · omega

theorem insertBytes_freeCount {p : Nat} (hp : p < 64) (data : List Byte) (s : State) :
    (insertBytes p data s).freeCount = s.freeCount + 72 * ((p + data.length) / 64) := by
  induction data generalizing p s with
  | nil => rw [insertBytes, List.length_nil, Nat.add_zero, Nat.div_eq_of_lt hp, Nat.mul_zero, Nat.add_zero]
  | cons b rest ih =>
    rw [insertBytes, ih (Nat.mod_lt _ (by decide)), insertByte_freeCount hp, List.length_cons]
    omega

theorem insertBytes_hash {p : Nat} {data : List Byte} (h : p + data.length < 64) (s : State) :
    (insertBytes p data s).hash = s.hash := by
  induction data generalizing p s with
  | nil => rfl
  | cons b rest ih =>
    rw [List.length_cons] at h
    rw [insertBytes, Nat.mod_eq_of_lt (by omega), ih (by omega), insertByte_hash (by omega)]

theorem openCursorWord_frame (s : State) : openCursorWord s = { s with buf := (openCursorWord s).buf } := by
  obtain ⟨-, heq⟩ | ⟨-, heq⟩ := openCursorWord_cases s <;> rw [heq]
  rfl

theorem absorb_freeCount (data : List Byte) (s : State) :
    (absorb data s).freeCount = s.freeCount + 72 * ((blockPosition s + data.length) / 64) := by
  have hp := blockPosition_lt s
  obtain rfl | hne := eq_or_ne data []
  · rw [absorb_nil, List.length_nil, Nat.add_zero, Nat.div_eq_of_lt hp, Nat.mul_zero, Nat.add_zero]
  · rw [absorb_eq_insertBytes hne, advanceBitlen_freeCount, insertBytes_freeCount hp, openCursorWord_frame]

theorem absorb_hash {s : State} {data : List Byte} (h : blockPosition s + data.length < 64) :
    (absorb data s).hash = s.hash := by
  obtain rfl | hne := eq_or_ne data []
  · rfl
  · rw [absorb_eq_insertBytes hne, advanceBitlen_hash, insertBytes_hash h, openCursorWord_frame]

/-- Settles O12, by counting the insertions that end a block. -/
theorem absorbCompressesOncePerCompletedBlock : Obligations.AbsorbCompressesOncePerCompletedBlock :=
  fun s data => ⟨absorb_freeCount data s, absorb_hash⟩

/-- ABSORB leaves `H` alone or runs COMPRESS. -/
theorem absorb_hash_or_freeCount (data : List Byte) (s : State) :
    (absorb data s).hash = s.hash ∨ ∃ n, 0 < n ∧ (absorb data s).freeCount = s.freeCount + 72 * n := by
  by_cases h : blockPosition s + data.length < 64
  · exact .inl (absorb_hash h)
  · exact .inr ⟨_, Nat.div_pos (not_lt.1 h) (by decide), absorb_freeCount data s⟩

theorem padOnce_hash_or_freeCount (s : State) :
    (padOnce s).hash = s.hash ∨ ∃ n, 0 < n ∧ (padOnce s).freeCount = s.freeCount + 72 * n := by
  cases hd : s.done with
  | true => exact .inl (by rw [padOnce_of_done hd])
  | false =>
    rw [padOnce_of_active hd]
    exact absorb_hash_or_freeCount _ (setDone s)

/-- Settles O39: of the effects of a command only INIT's and those of ABSORB touch `H`. -/
theorem hashIsWrittenByInitAndCompressOnly : Obligations.HashIsWrittenByInitAndCompressOnly := by
  intro s t h
  obtain ⟨-, rfl⟩ | ⟨hdr, rest, -, rfl⟩ | ⟨i, rest, hdec, hexec⟩ := step_cases h
  · exact .inl rfl
  · exact .inl rfl
  · obtain ⟨r, u, rfl, heffect⟩ := exec_cases hexec
    cases heffect with
    | none => exact .inl rfl
    | initialised => exact .inr (.inl ⟨rest, hdec⟩)
    | absorbed => exact (absorb_hash_or_freeCount _ (consume rest s)).imp_right .inr
    | padded => exact (padOnce_hash_or_freeCount (consume rest s)).imp_right .inr

/-! ## The bytes of the buffer -/

theorem bufByte_xor_at {p : Nat} (hp : p < 64) (b : Byte) (s : State) (q : Nat) :
    bufByte (bufXorByte (p / 4) (p % 4) b s).buf q = if q = p then bufByte s.buf q ^^^ b else bufByte s.buf q := by
  rw [bufByte_bufXorByte (by omega) (by omega), Nat.div_add_mod]

/-- Inside a block the insertion of a byte writes at its position, and into the word that the cursor moves to. -/
theorem bufByte_insertByte_of_ne {p q : Nat} (hp : p < 63) (hq : q ≠ p) (hword : q / 4 ≠ (p + 1) / 4 ∨ p % 4 ≠ 3)
    (b : Byte) (s : State) : bufByte (insertByte p b s).buf q = bufByte s.buf q := by
  obtain ⟨-, heq⟩ | ⟨hlane, -, heq⟩ | ⟨rfl, -⟩ := insertByte_cases p b s
  · rw [heq, bufByte_xor_at (by omega), if_neg hq]
  · rw [heq, bufByte_bufSetWord (by omega), if_neg (by omega), bufByte_xor_at (by omega), if_neg hq]
  · omega

theorem bufByte_insertByte_self {p : Nat} (hp : p < 63) {s : State} (h : LanesZeroFrom p s) (b : Byte) :
    bufByte (insertByte p b s).buf p = b := by
  have hxor : bufByte (bufXorByte (p / 4) (p % 4) b s).buf p = b := by
    rw [bufByte_xor_at (by omega), if_pos rfl, h.bufByte rfl le_rfl]
    exact BitVec.zero_xor
  obtain ⟨-, heq⟩ | ⟨hlane, -, heq⟩ | ⟨rfl, -⟩ := insertByte_cases p b s
  · rw [heq, hxor]
  · rw [heq, bufByte_bufSetWord (by omega), if_neg (by omega), hxor]
  · omega

/-- Bytes before the cursor are kept. -/
theorem bufByte_insertBytes_before {p q : Nat} {data : List Byte} (h : p + data.length < 64) (hq : q < p) (s : State) :
    bufByte (insertBytes p data s).buf q = bufByte s.buf q := by
  induction data generalizing p s with
  | nil => rfl
  | cons b rest ih =>
    rw [List.length_cons] at h
    rw [insertBytes, Nat.mod_eq_of_lt (by omega), ih (by omega) (by omega),
      bufByte_insertByte_of_ne (by omega) hq.ne (by omega)]

/-- The chunk stands at the positions from the cursor on. -/
theorem bufByte_insertBytes_chunk {p j : Nat} {data : List Byte} (h : p + data.length < 64) {s : State}
    (hzero : LanesZeroFrom p s) (hj : j < data.length) :
    bufByte (insertBytes p data s).buf (p + j) = data.getD j 0 := by
  induction data generalizing p j s with
  | nil => cases hj
  | cons b rest ih =>
    rw [List.length_cons] at h hj
    have hnext := insertByte_lanesZero (by omega) hzero b
    rw [Nat.mod_eq_of_lt (by omega)] at hnext
    rw [insertBytes, Nat.mod_eq_of_lt (by omega)]
    cases j with
    | zero =>
      rw [bufByte_insertBytes_before (by omega) (by omega)]
      exact bufByte_insertByte_self (by omega) hzero b
    | succ j =>
      have hplace : p + (j + 1) = p + 1 + j := by omega
      rw [hplace, List.getD_cons_succ]
      exact ih (by omega) hnext (by omega)

/-- Words above the one that the cursor ends in are kept. -/
theorem bufByte_insertBytes_above {p q : Nat} {data : List Byte} (h : p + data.length < 64)
    (hq : (p + data.length) / 4 < q / 4) (s : State) : bufByte (insertBytes p data s).buf q = bufByte s.buf q := by
  induction data generalizing p s with
  | nil => rfl
  | cons b rest ih =>
    rw [List.length_cons] at h hq
    rw [insertBytes, Nat.mod_eq_of_lt (by omega), ih (by omega) (by omega),
      bufByte_insertByte_of_ne (by omega) (by omega) (by omega)]

/-- Settles O14: the chunk is inserted from the cursor on, and the lanes from its new place on are zero. -/
theorem updateInsideABlockWritesTheChunkAndZeroesItsLastWord :
    Obligations.UpdateInsideABlockWritesTheChunkAndZeroesItsLastWord := by
  intro s data hdone hfits _ hzero hinside
  have hlanes := (cursorLanesZero_iff s).1 hzero
  have hbuf : (respond .ok (absorb data s)).buf = (insertBytes (blockPosition s) data s).buf := by
    rw [respond_buf, absorb_eq_of_lanesZero hzero, advanceBitlen_buf]
  refine ⟨_, exec_update_of_fits hdone hfits, fun j hj => ?chunk, fun p hp => ?before, fun p _ hp => ?after,
    absorb_hash hinside, ?done, absorb_bitlen_toNat_of_fits hfits, absorb_cmdIn data s, ?response⟩
  case chunk => rw [hbuf, bufByte_insertBytes_chunk hinside hlanes hj]
  case before => rw [hbuf, bufByte_insertBytes_before hinside hp]
  case after =>
    rw [hbuf]
    split_ifs with hword
    · have hend := insertBytes_lanesZero (blockPosition_lt s) hlanes data
      rw [Nat.mod_eq_of_lt hinside] at hend
      exact hend.bufByte hword hp
    · exact bufByte_insertBytes_above hinside (by omega) s
  case done => rw [respond_done, absorb_done, hdone]
  case response => rw [respond_respOut, absorb_respOut, encodeResponse]

/-! ## ABSORB beside the streams -/

/-- An update outside the registers commutes with ABSORB. -/
theorem absorb_comm {f : State → State} (hf : CommutesWithWrites f) (hbits : ∀ s, (f s).bitlen = s.bitlen)
    (hadvance : ∀ n s, advanceBitlen n (f s) = f (advanceBitlen n s)) (data : List Byte) (s : State) :
    absorb data (f s) = f (absorb data s) := by
  obtain rfl | hne := eq_or_ne data []
  · rfl
  · have hopen : openCursorWord (f s) = f (openCursorWord s) := by
      simp only [openCursorWord, cursorLane, cursorWord, hbits, hf.bufSetWord]
      exact (apply_ite f _ _ _).symm
    have hpos : blockPosition (f s) = blockPosition s := by rw [blockPosition, hbits, blockPosition]
    rw [absorb_eq_insertBytes hne, absorb_eq_insertBytes hne, hopen, hpos, insertBytes_comm hf, hadvance]

theorem absorb_hostSend (more data : List Byte) (s : State) :
    absorb data (hostSend more s) = hostSend more (absorb data s) :=
  absorb_comm (hostSend_commutes more) (hostSend_bitlen more) (fun _ _ => rfl) data s

theorem absorb_respond (r : Response) (data : List Byte) (s : State) :
    absorb data (respond r s) = respond r (absorb data s) :=
  absorb_comm (respond_commutes r) (respond_bitlen r) (fun _ _ => rfl) data s

/-- Two chunks leave what their concatenation leaves: both sides are the same bytes one by one. -/
theorem absorb_absorb {s : State} (h : CursorLanesZero s) (a b : List Byte) :
    absorb b (absorb a s) = absorb (a ++ b) s := by
  rw [absorbIsByteSerial _ _ (absorb_lanesZero h a), absorbIsByteSerial _ _ h, absorbIsByteSerial _ _ h,
    List.foldl_append]

/-- Settles O45: neither ABSORB sees the response that the first UPDATE put on the stream, and together they are one. -/
theorem updateIsChunkInvariant : Obligations.UpdateIsChunkInvariant := by
  intro s a b hdone hzero hfits
  have hfirst := absorb_bitlen_toNat_of_fits (s := s) (data := a) (by omega)
  have hsecond := exec_update_of_fits (s := respond .ok (absorb a s)) (data := b)
    (by rw [respond_done, absorb_done, hdone]) (by rw [respond_bitlen, hfirst]; omega)
  have hboth := exec_update_of_fits (s := s) (data := a ++ b) hdone (by rw [List.length_append]; omega)
  refine ⟨_, _, _, exec_update_of_fits hdone (by omega), hsecond, hboth, ?same, ?response⟩
  case same =>
    rw [absorb_respond, absorb_absorb hzero]
    simp only [respond, absorb_respOut, List.append_assoc]
    rfl
  case response => rw [respond_respOut, absorb_respOut, encodeResponse]

end Sys2Proof.Machine
end

