-- ==== Sys2Proof/Proofs/LaterBytes.lean ====
section
/-! PROOF. A step on a complete command commutes with the host sending more bytes (spec/20_memory.md section 6,
spec/30_encoding.md R66). -/

namespace Sys2Proof.Machine

/-! ## The decoder on a longer stream -/

theorem decode_append_of_command {bytes rest : List Byte} {i : Instr} (h : decode bytes = .command i rest)
    (more : List Byte) : decode (bytes ++ more) = .command i (rest ++ more) := by
  obtain ⟨hwf, rfl⟩ := (decodeAndEncodeAgree _ _ _).1 h
  rw [List.append_assoc, decode_encode hwf]

/-- A header is illegal by itself: it selects no row, whatever follows it. -/
theorem decode_append_of_illegal {bytes rest : List Byte} {hdr : Header} (h : decode bytes = .illegal hdr rest)
    (more : List Byte) : decode (bytes ++ more) = .illegal hdr (rest ++ more) := by
  obtain ⟨b0, b1, rfl, rfl, hnone⟩ := eq_cons_cons_of_illegal h
  obtain ⟨-, -, hillegal⟩ := opcodeRowsPartitionTheHeaders (headerOfBytes b0 b1) (rest ++ more)
  exact hillegal.2 hnone

/-! ## The commands beside the command stream -/

/-- FINAL's padding reads no stream. -/
theorem padOnce_hostSend (more : List Byte) (s : State) : padOnce (hostSend more s) = hostSend more (padOnce s) := by
  cases hd : s.done with
  | true =>
    have hsent : (hostSend more s).done = true := hd
    rw [padOnce_of_done hd, padOnce_of_done hsent]
  | false =>
    have hsent : (hostSend more s).done = false := hd
    rw [padOnce_of_active hd, padOnce_of_active hsent, hostSend_bitlen, ← absorb_hostSend]
    rfl

/-- A command reads no byte of the stream that stands behind it. -/
theorem exec_hostSend {i : Instr} {s t : State} (h : exec i s = .next t) (more : List Byte) :
    exec i (hostSend more s) = .next (hostSend more t) := by
  cases i with
  | init => cases h; rfl
  | update data =>
    cases hd : s.done with
    | true =>
      rw [exec_update_finalized hd] at h
      cases h
      exact exec_update_finalized (s := hostSend more s) hd data
    | false =>
      cases ho : lengthOverflows s data.length with
      | true =>
        rw [exec_update_overflow hd ho] at h
        cases h
        exact exec_update_overflow (s := hostSend more s) hd ho
      | false =>
        rw [exec_update_accepted hd ho] at h
        cases h
        rw [exec_update_accepted (s := hostSend more s) hd ho, absorb_hostSend]
        rfl
  | final =>
    rw [exec_final] at h
    cases h
    rw [exec_final, padOnce_hostSend, hostSend_bitlen]
    split_ifs <;> rfl

/-- Settles O37: a command or an illegal header decodes as before, and its meaning reads no later byte. -/
theorem laterBytesDoNotDisturbACommand : Obligations.LaterBytesDoNotDisturbACommand := by
  intro s t more hcomplete hstep
  cases hdec : decode s.cmdIn with
  | incomplete => exact absurd hdec hcomplete
  | illegal hdr rest =>
    rw [step_illegal hdec] at hstep
    cases hstep
    exact step_illegal (s := hostSend more s) (decode_append_of_illegal hdec more)
  | command i rest =>
    rw [step_command hdec] at hstep
    rw [step_command (s := hostSend more s) (decode_append_of_command hdec more)]
    exact exec_hostSend hstep more

end Sys2Proof.Machine
end

