-- ==== Sys2Proof/Proofs/FinalBlock.lean ====
section
/-! PROOF. The padding ends on a block boundary, so FINAL always answers a digest, and it leaves the length in the last two
words of the buffer (spec/43_padding_finalization.md R140 to R147). -/

namespace Sys2Proof.Machine

/-! ## The padding as bytes -/

/-- R140 by the message's bytes in the block being assembled: the zeros run up to the last 8 bytes of this block, or of
the next one where the marker leaves less than 8. -/
theorem zeroCount_eq {L : BitLength} (hL : L.toNat % 8 = 0) :
    zeroCount L = if L.toNat / 8 % 64 ≤ 55 then 55 - L.toNat / 8 % 64 else 119 - L.toNat / 8 % 64 := by
  rw [zeroCount, lenAfterMarker]
  split_ifs <;> omega

/-- R146: with its padding a message of whole bytes is a whole number of blocks. -/
theorem padded_bits_mod {L : BitLength} (hL : L.toNat % 8 = 0) : (L.toNat + 8 * (padBytes L).length) % 512 = 0 := by
  rw [length_padBytes, zeroCount_eq hL]
  split_ifs <;> omega

/-- Settles O16: the zero count by the position in the block, and the sum of the parts. -/
theorem paddingEndsOnABlockBoundary : Obligations.PaddingEndsOnABlockBoundary := by
  intro L hL
  have hzeros := zeroCount_le hL
  have hlen := length_padBytes L
  exact ⟨by rw [padBytes, zeroCount_eq hL], by omega, by omega, padded_bits_mod hL⟩

/-- The padding before its length field: the marker and the zeros. -/
def padFront (L : BitLength) : List Byte := 0x80 :: List.replicate (zeroCount L) 0

theorem padFront_ne_nil (L : BitLength) : padFront L ≠ [] := List.cons_ne_nil _ _

theorem padBytes_ne_nil (L : BitLength) : padBytes L ≠ [] := List.cons_ne_nil _ _

theorem padBytes_eq (L : BitLength) : padBytes L = padFront L ++ be64 L := rfl

theorem drop_padBytes (L : BitLength) : (padBytes L).drop ((padBytes L).length - 8) = be64 L := by
  have hlen : (padBytes L).length - 8 = (padFront L).length := by
    rw [padBytes_eq, List.length_append]
    rfl
  rw [hlen, padBytes_eq, List.drop_left]

/-- R12: `be64` read most significant byte first gives its value back. -/
theorem foldl_be64 (L : BitLength) : (be64 L).foldl (fun n b => 256 * n + b.toNat) 0 = L.toNat := by
  have hstep (k : Nat) : 256 * (L.toNat / 2 ^ (k + 8)) + L.toNat / 2 ^ k % 2 ^ 8 = L.toNat / 2 ^ k := by
    rw [Nat.pow_add, ← Nat.div_div_eq_div_mul]
    exact Nat.div_add_mod _ _
  have htop : 256 * 0 + L.toNat / 2 ^ 56 % 2 ^ 8 = L.toNat / 2 ^ 56 := by omega
  simp only [be64, List.foldl_cons, List.foldl_nil, BitVec.extractLsb'_toNat, Nat.shiftRight_eq_div_pow]
  rw [htop, hstep 48, hstep 40, hstep 32, hstep 24, hstep 16, hstep 8, hstep 0, Nat.pow_zero, Nat.div_one]

/-! ## FINAL's check -/

/-- R143, R147: after the padding step the counter is at a block boundary. -/
theorem padOnce_whole_blocks {s : State} (hbytes : ByteAligned s) (hwhole : FinalizedIsWholeBlocks s) :
    (padOnce s).bitlen.toNat % 512 = 0 := by
  cases hd : s.done with
  | true => rw [padOnce_of_done hd, hwhole hd]
  | false =>
    have hpadded := padded_bits_mod hbytes
    rw [padOnce_of_active hd, absorb_bitlen, setDone_bitlen, BitVec.toNat_add, BitVec.toNat_ofNat]
    omega

theorem exec_final_of_aligned {s : State} (hbytes : ByteAligned s) (hwhole : FinalizedIsWholeBlocks s) :
    exec .final s = .next (respond (.digest (digestOf (padOnce s).hash)) (padOnce s)) :=
  exec_final_digest ((padInvariantBroken_eq_false_iff _).2 (padOnce_whole_blocks hbytes hwhole))

/-- Settles O23: the check passes, and a FINALIZED engine is not padded again. -/
theorem finalAlwaysAnswersADigest : Obligations.FinalAlwaysAnswersADigest := by
  intro s hbytes hwhole
  refine ⟨_, exec_final_of_aligned hbytes hwhole, ?response, padOnce_done s, padOnce_whole_blocks hbytes hwhole,
    padOnce_cmdIn s, fun hdone => ?finalized⟩
  case response =>
    rw [respond_respOut, padOnce_respOut]
    rfl
  case finalized =>
    rw [padOnce_of_done hdone]
    rfl

/-! ## The length field in the buffer -/

/-- Bytes that end with a whole word leave a word of zeros at the cursor. -/
theorem readWord_insertBytes_last {p : Nat} (hp : p < 64) {data : List Byte} (hne : data ≠ [])
    (hend : (p + data.length) % 4 = 0) (s : State) :
    readWord (insertBytes p data s).buf ((p + data.length) % 64 / 4) = 0 := by
  induction data generalizing p s with
  | nil => exact absurd rfl hne
  | cons b rest ih =>
    obtain rfl | hrest := eq_or_ne rest []
    · rw [List.length_singleton] at hend ⊢
      exact readWord_insertByte_last hp (by omega) b s
    · rw [List.length_cons] at hend ⊢
      have hplace : (p + (rest.length + 1)) % 64 = ((p + 1) % 64 + rest.length) % 64 := by omega
      rw [insertBytes, hplace]
      exact ih (Nat.mod_lt _ (by decide)) hrest (by omega) _

/-- The last two quartets of a block: they are assigned, COMPRESS runs, and the cursor's word is zeroed (R122, R126). -/
theorem absorbWords_last_two (b0 b1 b2 b3 b4 b5 b6 b7 : Byte) (s : State) :
    absorbWords [b0, b1, b2, b3, b4, b5, b6, b7] 14 s =
      bufSetWord 0 0 (compress (bufSetWord 15 (wordBE b4 b5 b6 b7) (bufSetWord 14 (wordBE b0 b1 b2 b3) s))) := rfl

theorem wordBE_extractLsb' (v : BitLength) (k : Nat) :
    wordBE (v.extractLsb' (k + 24) 8) (v.extractLsb' (k + 16) 8) (v.extractLsb' (k + 8) 8) (v.extractLsb' k 8) =
      v.extractLsb' k 32 := by
  have hjoin {start len : Nat} :
      v.extractLsb' (start + 8) len ++ v.extractLsb' start 8 = v.extractLsb' start (len + 8) :=
    BitVec.extractLsb'_append_extractLsb'_eq_extractLsb' rfl
  rw [wordBE_eq_append, hjoin (start := k + 16), hjoin (start := k + 8), hjoin (start := k)]

/-- The length field inserted at its place, the word there being zero. -/
theorem insertBytes_be64 {s : State} (h : readWord s.buf 14 = 0) (L : BitLength) :
    insertBytes 56 (be64 L) s =
      bufSetWord 0 0 (compress (bufSetWord 15 (L.extractLsb' 0 32) (bufSetWord 14 (L.extractLsb' 32 32) s))) := by
  have hwords := absorbWords_eq_insertBytes (w := 14) (by decide) (be64 L) s
  rw [bufSetWord_readWord h, be64, absorbWords_last_two, wordBE_extractLsb' L 32, wordBE_extractLsb' L 0] at hwords
  exact hwords.symm

/-- R141: the marker and the zeros end where the length field of a block begins. -/
theorem padFront_ends {s : State} (hbytes : ByteAligned s) :
    (blockPosition s + (padFront s.bitlen).length) % 64 = 56 := by
  have hlen : (padFront s.bitlen).length = zeroCount s.bitlen + 1 := by simp [padFront]
  rw [hlen, zeroCount_eq hbytes, blockPosition]
  split_ifs <;> omega

theorem padOnce_length_words {s : State} (hdone : s.done = false) (hbytes : ByteAligned s) :
    readWord (padOnce s).buf 14 = s.bitlen.extractLsb' 32 32 ∧
      readWord (padOnce s).buf 15 = s.bitlen.extractLsb' 0 32 := by
  have hp := blockPosition_lt s
  have hends := padFront_ends hbytes
  have hzero := readWord_insertBytes_last hp (padFront_ne_nil s.bitlen) (by omega)
    (openCursorWord (setDone s))
  rw [hends] at hzero
  have hpos : blockPosition (setDone s) = blockPosition s := rfl
  rw [padOnce_of_active hdone, absorb_eq_insertBytes (padBytes_ne_nil _), hpos, padBytes_eq,
    insertBytes_append hp, hends, advanceBitlen_buf, insertBytes_be64 hzero]
  constructor
  · rw [bufSetWord_buf, readWord_writeWord_other _ (by decide), compress_buf, bufSetWord_buf,
      readWord_writeWord_other _ (by decide), bufSetWord_buf, readWord_writeWord_same _ (by decide)]
  · rw [bufSetWord_buf, readWord_writeWord_other _ (by decide), compress_buf, bufSetWord_buf,
      readWord_writeWord_same _ (by decide)]

/-- Settles O17: the check passes, so FINAL's state is the padded one, whose last two words took the length field. -/
theorem lengthFieldEndsTheLastBlock : Obligations.LengthFieldEndsTheLastBlock := by
  intro s hdone hbytes
  have hwhole : FinalizedIsWholeBlocks s := fun h => by simp [hdone] at h
  exact ⟨by rw [drop_padBytes, foldl_be64], _, exec_final_of_aligned hbytes hwhole, padOnce_length_words hdone hbytes⟩

end Sys2Proof.Machine
end

