-- ==== Sys2Proof/Proofs/StaleStorage.lean ====
section
/-! PROOF. No response depends on the scratch or on the words of the buffer above the cursor (spec/10_state.md R36, U3,
U6). -/

namespace Sys2Proof.Machine

/-! ## Agreement up to a word of the buffer -/

/-- `SameToHost` with the cursor's word named: inside ABSORB the counter no longer tells it (R207). -/
structure SameUpTo (w : Nat) (s t : State) : Prop where
  hash : s.hash = t.hash
  buf : ∀ i ≤ w, readWord s.buf i = readWord t.buf i
  bitlen : s.bitlen = t.bitlen
  done : s.done = t.done
  cmdIn : s.cmdIn = t.cmdIn
  respOut : s.respOut = t.respOut

theorem sameToHost_iff (s t : State) : SameToHost s t ↔ SameUpTo (cursorWord s) s t :=
  ⟨fun ⟨hhash, hbuf, hbits, hdone, hcmd, hresp⟩ => ⟨hhash, hbuf, hbits, hdone, hcmd, hresp⟩,
    fun ⟨hhash, hbuf, hbits, hdone, hcmd, hresp⟩ => ⟨hhash, hbuf, hbits, hdone, hcmd, hresp⟩⟩

section Writes

variable {w : Nat} {s t : State} (h : SameUpTo w s t)
include h

theorem SameUpTo.bufXorByte (hw : w < 16) (l : Nat) (b : Byte) :
    SameUpTo w (bufXorByte w l b s) (bufXorByte w l b t) where
  hash := h.hash
  buf i hi := by
    rw [bufXorByte_buf, bufXorByte_buf]
    obtain rfl | hlt := hi.eq_or_lt
    · rw [readWord_writeWord_same _ hw, readWord_writeWord_same _ hw, h.buf i hi]
    · rw [readWord_writeWord_other _ hlt.ne', readWord_writeWord_other _ hlt.ne', h.buf i hi]
  bitlen := h.bitlen
  done := h.done
  cmdIn := h.cmdIn
  respOut := h.respOut

/-- An assigned word agrees whatever the two engines held there. -/
theorem SameUpTo.bufSetWord {k : Nat} (hk : k < 16) (hle : k ≤ w + 1) (v : Word) :
    SameUpTo k (bufSetWord k v s) (bufSetWord k v t) where
  hash := h.hash
  buf i hi := by
    rw [bufSetWord_buf, bufSetWord_buf]
    obtain rfl | hlt := hi.eq_or_lt
    · rw [readWord_writeWord_same _ hk, readWord_writeWord_same _ hk]
    · rw [readWord_writeWord_other _ hlt.ne', readWord_writeWord_other _ hlt.ne', h.buf i (by omega)]
  bitlen := h.bitlen
  done := h.done
  cmdIn := h.cmdIn
  respOut := h.respOut

theorem SameUpTo.advanceBitlen (n : Nat) : SameUpTo w (advanceBitlen n s) (advanceBitlen n t) :=
  ⟨h.hash, h.buf, by rw [advanceBitlen_bitlen, h.bitlen, advanceBitlen_bitlen], h.done, h.cmdIn, h.respOut⟩

end Writes

/-- COMPRESS reads the whole block and no scratch (R103). -/
theorem SameUpTo.compress {s t : State} (h : SameUpTo 15 s t) : SameUpTo 15 (compress s) (compress t) where
  hash := by
    have hbuf : s.buf = t.buf := eq_of_readWord_eq fun i hi => h.buf i (by omega)
    rw [compressDependsOnHashAndBlockOnly, compressDependsOnHashAndBlockOnly, h.hash, hbuf]
  buf i hi := by rw [compress_buf, compress_buf, h.buf i hi]
  bitlen := by rw [compress_bitlen, compress_bitlen, h.bitlen]
  done := by rw [compress_done, compress_done, h.done]
  cmdIn := by rw [compress_cmdIn, compress_cmdIn, h.cmdIn]
  respOut := by rw [compress_respOut, compress_respOut, h.respOut]

/-! ## ABSORB -/

theorem SameUpTo.insertByte {p : Nat} (hp : p < 64) {s t : State} (h : SameUpTo (p / 4) s t) (b : Byte) :
    SameUpTo ((p + 1) % 64 / 4) (insertByte p b s) (insertByte p b t) := by
  have hxor := h.bufXorByte (by omega) (p % 4) b
  unfold Machine.insertByte
  split_ifs with hlane hlast
  · subst hlast
    exact hxor.compress.bufSetWord (by decide) (by decide) 0
  · have hnext : (p + 1) % 64 / 4 = p / 4 + 1 := by omega
    rw [hnext]
    exact hxor.bufSetWord (by omega) le_rfl 0
  · have hword : (p + 1) % 64 / 4 = p / 4 := by omega
    rwa [hword]

theorem SameUpTo.insertBytes {p : Nat} (hp : p < 64) {s t : State} (h : SameUpTo (p / 4) s t) (data : List Byte) :
    SameUpTo ((p + data.length) % 64 / 4) (insertBytes p data s) (insertBytes p data t) := by
  induction data generalizing p s t with
  | nil => rwa [List.length_nil, Nat.add_zero, Nat.mod_eq_of_lt hp]
  | cons b rest ih =>
    have hend : ((p + 1) % 64 + rest.length) % 64 = (p + (b :: rest).length) % 64 := by
      rw [List.length_cons]
      omega
    rw [Machine.insertBytes, Machine.insertBytes, ← hend]
    exact ih (Nat.mod_lt _ (by decide)) (h.insertByte hp b)

theorem SameToHost.openCursorWord {s t : State} (h : SameToHost s t) :
    SameUpTo (cursorWord s) (openCursorWord s) (openCursorWord t) := by
  have hsame := (sameToHost_iff s t).1 h
  have hlane : cursorLane t = cursorLane s := by rw [cursorLane, ← h.bitlen, cursorLane]
  have hcursor : cursorWord t = cursorWord s := by rw [cursorWord, ← h.bitlen, cursorWord]
  have hword : cursorWord s < 16 := by rw [cursorWord]; omega
  rw [Machine.openCursorWord, Machine.openCursorWord, hlane, hcursor]
  split_ifs
  · exact hsame.bufSetWord hword (Nat.le_succ _) 0
  · exact hsame

/-- ABSORB reads the counter, `H` and the words up to the cursor's, and leaves them alike. -/
theorem SameToHost.absorb {s t : State} (h : SameToHost s t) (data : List Byte) :
    SameToHost (absorb data s) (absorb data t) := by
  obtain rfl | hne := eq_or_ne data []
  · exact h
  · have hopen := h.openCursorWord
    have hpos : blockPosition t = blockPosition s := by rw [blockPosition, ← h.bitlen, blockPosition]
    rw [cursorWord_eq] at hopen
    rw [sameToHost_iff, cursorWord_eq, blockPosition_absorb, absorb_eq_insertBytes hne, absorb_eq_insertBytes hne, hpos]
    exact (hopen.insertBytes (blockPosition_lt s) data).advanceBitlen data.length

/-! ## Commands and steps -/

theorem SameToHost.respond {s t : State} (h : SameToHost s t) (r : Response) : SameToHost (respond r s) (respond r t) :=
  ⟨h.hash, h.buf, h.bitlen, h.done, h.cmdIn, by rw [respond_respOut, h.respOut, respond_respOut]⟩

theorem SameToHost.consume {s t : State} (h : SameToHost s t) (rest : List Byte) :
    SameToHost (consume rest s) (consume rest t) :=
  ⟨h.hash, h.buf, h.bitlen, h.done, rfl, h.respOut⟩

theorem SameToHost.initialise {s t : State} (h : SameToHost s t) : SameToHost (initialise s) (initialise t) :=
  ⟨rfl, fun _ _ => rfl, rfl, rfl, h.cmdIn, h.respOut⟩

theorem SameToHost.padOnce {s t : State} (h : SameToHost s t) : SameToHost (padOnce s) (padOnce t) := by
  cases hd : s.done with
  | true => rwa [padOnce_of_done hd, padOnce_of_done (h.done ▸ hd)]
  | false =>
    have hset : SameToHost (setDone s) (setDone t) := ⟨h.hash, h.buf, h.bitlen, rfl, h.cmdIn, h.respOut⟩
    rw [padOnce_of_active hd, padOnce_of_active (h.done ▸ hd), ← h.bitlen]
    exact hset.absorb _

/-- A command's guards, its writes and its response read nothing that two such engines differ in. -/
theorem SameToHost.exec {s t : State} (h : SameToHost s t) (i : Instr) :
    ∃ s' t', exec i s = .next s' ∧ exec i t = .next t' ∧ SameToHost s' t' := by
  cases i with
  | init => exact ⟨_, _, exec_init s, exec_init t, h.initialise.respond .ok⟩
  | update data =>
    refine ⟨_, _, rfl, rfl, ?_⟩
    rw [lengthOverflows, lengthOverflows, ← h.done, ← h.bitlen]
    split_ifs
    · exact h.respond (.err .updateAfterFinal)
    · exact h.respond (.err .lenOverflow)
    · exact (h.absorb data).respond .ok
  | final =>
    have hpad := h.padOnce
    refine ⟨_, _, exec_final s, exec_final t, ?_⟩
    rw [← hpad.bitlen, ← hpad.hash]
    split_ifs
    · exact hpad.respond (.err .padInvariant)
    · exact hpad.respond (.digest _)

/-- Settles O44: the two engines decode the same command, and each command keeps the agreement. -/
theorem staleStorageIsUnobservable : Obligations.StaleStorageIsUnobservable := by
  intro s t h
  cases hdec : decode s.cmdIn with
  | incomplete => exact ⟨s, t, step_incomplete hdec, step_incomplete (h.cmdIn ▸ hdec), h⟩
  | illegal hdr rest =>
    exact ⟨_, _, step_illegal hdec, step_illegal (h.cmdIn ▸ hdec), (h.consume rest).respond (.err .illegalCmd)⟩
  | command i rest =>
    obtain ⟨s', t', hs, ht, hsame⟩ := (h.consume rest).exec i
    exact ⟨s', t', (step_command hdec).trans hs, (step_command (h.cmdIn ▸ hdec)).trans ht, hsame⟩

end Sys2Proof.Machine
end

