-- ==== Sys2Proof/Proofs/BoundaryInvariant.lean ====
section
/-! PROOF. What every step and every move of the host keeps: the boundary invariant, and that the engine holds a message
(spec/10_state.md R24 to R27 and R37, spec/44_host_commands.md R166, spec/70_reset_and_hazards.md R200). -/

namespace Sys2Proof.Machine

/-! ## The new state -/

/-- Settles O19: the fields of `State.reset`, and an empty command stream is incomplete. -/
theorem resetIsTheNewState : Obligations.ResetIsTheNewState :=
  ⟨rfl, fun i _ => readWord_replicate_zero 16 i, rfl, rfl, rfl, rfl, rfl, step_incomplete decode_nil⟩

/-- Settles O40, field by field. -/
theorem hostResetDiscardsEverything : Obligations.HostResetDiscardsEverything := fun s =>
  ⟨hostReset_hash s, hostReset_buf s, hostReset_bitlen s, hostReset_done s, hostReset_cmdIn s, hostReset_respOut s⟩

/-! ## Keeping a property of the registers -/

/-- A property of the registers that the three commands keep, and that the state of `new()` has. -/
structure RegisterInvariant (P : State → Prop) : Prop where
  streams : ∀ s cmdIn respOut, P s → P { s with cmdIn := cmdIn, respOut := respOut }
  new : ∀ s : State, s.hash = Config.IV → s.buf = Vector.replicate 16 0 → s.bitlen = 0 → s.done = false → P s
  absorbed : ∀ s data, s.done = false → s.bitlen.toNat + 8 * data.length < 2 ^ 64 → P s → P (absorb data s)
  padded : ∀ s, s.done = false → P s → P (absorb (padBytes s.bitlen) (setDone s))

section Keeping

variable {P : State → Prop} (hP : RegisterInvariant P)
include hP

theorem CommandEffect.keeps {i : Instr} {s u : State} (heffect : CommandEffect i s u) (h : P s) : P u := by
  cases heffect with
  | none => exact h
  | initialised => exact hP.new _ rfl rfl rfl rfl
  | absorbed hdone hfits => exact hP.absorbed s _ hdone hfits h
  | padded =>
    cases hd : s.done with
    | true => rwa [padOnce_of_done hd]
    | false =>
      rw [padOnce_of_active hd]
      exact hP.padded s hd h

theorem step_keeps {s t : State} (hstep : step s = .next t) (h : P s) : P t := by
  obtain ⟨-, rfl⟩ | ⟨hdr, rest, -, rfl⟩ | ⟨i, rest, -, hexec⟩ := step_cases hstep
  · exact h
  · exact hP.streams s _ _ h
  · obtain ⟨r, u, rfl, heffect⟩ := exec_cases hexec
    exact hP.streams u _ _ (heffect.keeps hP (hP.streams s rest _ h))

theorem applyMove_keeps (m : Move) {s : State} (h : P s) : P (applyMove m s) := by
  cases m with
  | engineStep =>
    obtain ⟨t, hstep, -⟩ := everyStepAnswersOnce s
    rw [applyMove, hstep]
    exact step_keeps hP hstep h
  | send bytes => exact hP.streams s _ _ h
  | take n => exact hP.streams s _ _ h
  | reset => exact hP.new _ (hostReset_hash s) (hostReset_buf s) (hostReset_bitlen s) (hostReset_done s)

/-- What holds of the new state and is kept by the commands holds of every reachable state. -/
theorem reachable_keeps {s : State} (h : Reachable s) : P s := by
  induction h with
  | reset => exact hP.new _ rfl rfl rfl rfl
  | move m _ ih => exact applyMove_keeps hP m ih

end Keeping

/-! ## The boundary invariant -/

theorem inv_of_new {s : State} (hbuf : s.buf = Vector.replicate 16 0) (hbits : s.bitlen = 0) (hdone : s.done = false) :
    Inv s where
  byteAligned := by rw [ByteAligned, hbits]; rfl
  cursorLanesZero l _ _ := by rw [hbuf, readWord_replicate_zero, lane_zero]
  finalizedIsWholeBlocks h := by simp [hdone] at h

/-- Settles O41: the reset state is a new one. -/
theorem invariantHoldsAtReset : Obligations.InvariantHoldsAtReset := inv_of_new rfl rfl rfl

theorem absorb_byteAligned {s : State} (h : ByteAligned s) (data : List Byte) : ByteAligned (absorb data s) := by
  rw [ByteAligned, absorb_bitlen, BitVec.toNat_add, BitVec.toNat_ofNat]
  rw [ByteAligned] at h
  omega

/-- R26, R125, R147: the three clauses through ABSORB and through the padding step. -/
theorem inv_registerInvariant : RegisterInvariant Inv where
  streams _ _ _ := fun ⟨hbytes, hzero, hwhole⟩ => ⟨hbytes, hzero, hwhole⟩
  new _ _ := inv_of_new
  absorbed s data hdone _ := fun ⟨hbytes, hzero, _⟩ =>
    ⟨absorb_byteAligned hbytes data, absorb_lanesZero hzero data, fun h => by simp [hdone] at h⟩
  padded s hdone := fun ⟨hbytes, hzero, hwhole⟩ => by
    have hset : CursorLanesZero (setDone s) := hzero
    have hpadded := padOnce_whole_blocks hbytes hwhole
    rw [padOnce_of_active hdone] at hpadded
    exact ⟨absorb_byteAligned (s := setDone s) hbytes _, absorb_lanesZero hset _, fun _ => hpadded⟩

/-- Settles O42: the boundary invariant is kept by the commands, and so by steps and moves. -/
theorem everyMoveKeepsTheInvariant : Obligations.EveryMoveKeepsTheInvariant :=
  ⟨fun _ _ h hstep => step_keeps inv_registerInvariant hstep h, fun m _ h => applyMove_keeps inv_registerInvariant m h⟩

/-! ## The message an engine holds -/

/-- Settles O46, since ABSORB appends its chunk to the represented string. -/
theorem updateAppendsToTheMessage : Obligations.UpdateAppendsToTheMessage := by
  intro s message data hdone h hfits
  refine ⟨_, exec_update_of_fits hdone hfits, absorb_represents h data, ?done, ?response⟩
  case done => rw [respond_done, absorb_done, hdone]
  case response => rw [respond_respOut, absorb_respOut, encodeResponse]

/-- Settles O47, since FINAL absorbs the padding and the digest is that of the complete blocks. -/
theorem finalAnswersTheSha256Digest : Obligations.FinalAnswersTheSha256Digest := by
  intro s message hdone h _
  refine ⟨_, exec_final_of_represents hdone h, ?response, padOnce_done s, padOnce_represents hdone h⟩
  rw [respond_respOut, padOnce_respOut]
  rfl

theorem holdsMessage_active {s : State} (hdone : s.done = false) :
    HoldsMessage s ↔ ∃ message : List Byte, 8 * message.length < 2 ^ 64 ∧ Represents s message := by
  simp [HoldsMessage, hdone, Config.lengthLimit]

theorem holdsMessage_finalized {s : State} (hdone : s.done = true) :
    HoldsMessage s ↔ ∃ message : List Byte, 8 * message.length < 2 ^ 64 ∧
      Represents s (message ++ padBytes (bitCount message)) := by
  simp [HoldsMessage, hdone, Config.lengthLimit]

/-- Below 2^64 bits the counter is the message's length. -/
theorem bitlen_of_represents {s : State} {message : List Byte} (h : Represents s message)
    (hlen : 8 * message.length < 2 ^ 64) : s.bitlen.toNat = 8 * message.length := by
  obtain ⟨-, -, hbits⟩ := h
  rw [hbits, bitCount, BitVec.toNat_ofNat, Nat.mod_eq_of_lt hlen]

/-- R166: an UPDATE appends to the message, and the padding step appends the message's padding. -/
theorem holdsMessage_registerInvariant : RegisterInvariant HoldsMessage where
  streams _ _ _ h := h
  new s hhash hbuf hbits hdone := by
    refine (holdsMessage_active hdone).2 ⟨[], by decide, represents_nil hhash (fun i _ => ?_) hbits⟩
    rw [hbuf, readWord_replicate_zero]
  absorbed s data hdone hfits h := by
    obtain ⟨message, hlen, hrep⟩ := (holdsMessage_active hdone).1 h
    refine (holdsMessage_active (by rw [absorb_done, hdone])).2 ⟨message ++ data, ?_, absorb_represents hrep data⟩
    rw [bitlen_of_represents hrep hlen] at hfits
    rw [List.length_append]
    omega
  padded s hdone h := by
    obtain ⟨message, hlen, hrep⟩ := (holdsMessage_active hdone).1 h
    rw [← padOnce_of_active hdone]
    exact (holdsMessage_finalized (padOnce_done s)).2 ⟨message, hlen, padOnce_represents hdone hrep⟩

/-- Settles O43: both are register invariants. -/
theorem reachableStatesHoldAMessage : Obligations.ReachableStatesHoldAMessage := fun _ h =>
  ⟨reachable_keeps holdsMessage_registerInvariant h, reachable_keeps inv_registerInvariant h⟩

end Sys2Proof.Machine
end

