-- ==== Sys2Proof/Proofs/ConstantTables.lean ====
section
/-! PROOF. The constant tables are roots of the first primes (spec/10_state.md R30, R33). -/

namespace Sys2Proof.Machine

/-- The first 64 primes, by trial division: listed once, so that the two tables are checked against numerals. -/
theorem primesBelow_312 : primesBelow 312 =
    [2, 3, 5, 7, 11, 13, 17, 19, 23, 29, 31, 37, 41, 43, 47, 53, 59, 61, 67, 71, 73, 79, 83, 89, 97, 101, 103, 107, 109,
     113, 127, 131, 137, 139, 149, 151, 157, 163, 167, 173, 179, 181, 191, 193, 197, 199, 211, 223, 227, 229, 233, 239,
     241, 251, 257, 263, 269, 271, 277, 281, 283, 293, 307, 311] := by
  decide +kernel

/-- Settles O6: a finite check of the 64 and the 8 words in exact integer arithmetic, the integer part of each root
found below 8. -/
theorem constantsAreRootsOfPrimes : Obligations.ConstantsAreRootsOfPrimes := by
  unfold Obligations.ConstantsAreRootsOfPrimes
  rw [primesBelow_312]
  refine ⟨rfl, ?cubes, ?squares⟩
  case cubes => decide +kernel
  case squares => decide +kernel

end Sys2Proof.Machine
end
